-- ==== Sys2Proof/Word.lean ====
section
/-! DEFINITION. The word types of the block: bytes, 64-bit words and the 128-bit pair of limbs
(00_scope.md R7, R10; 10_state.md R21). -/

namespace Sys2Proof

/-- One byte of the block buffer (R41). -/
abbrev Byte := BitVec 8

/-- One limb, one BUF word, one port datum: 64 bits (R7). -/
abbrev Word := BitVec 64

/-- The source's WideUint: a pair of 64-bit limbs (R10, R21). -/
structure Wide where
  hi : Word
  lo : Word
deriving DecidableEq, Repr, Inhabited

/-- The number a wide value denotes, H·2^64 + L (R10). -/
def Wide.value (x : Wide) : Nat := x.hi.toNat * 2 ^ 64 + x.lo.toNat

/-- The wide value zero. -/
def Wide.zero : Wide := ⟨0, 0⟩

/-- The source's pair notation `(0, x)`: high limb 0, low limb `x` (R10). -/
def Wide.ofLow (x : Word) : Wide := ⟨0, x⟩

end Sys2Proof
end

