-- ==== Sys2Proof/Syntax.lean ====
section
/-! DEFINITION. The commands of the block, one constructor per row of spec/opcode_table.json (R61, R62), and the error
codes a malformed command or access is rejected with (R152). -/

namespace Sys2Proof

/-- The name of a working register, W0..W7 (R21). -/
abbrev WReg := Fin 8

/-- A legal source selector: a W register, or KR, which yields ROUND_CONST (R22). -/
inductive Src where
  | w (i : WReg)
  | kr
deriving DecidableEq, Repr

/-- The commands (R62). A destination is a legal destination selector by its type (R64); an immediate is the raw
8-bit field, whose range is checked by `Instr.wellFormed` (R65). -/
inductive Instr where
  /-- ADD128 Wd, Sa, Sb (R82). -/
  | add128 (rd : WReg) (ra rb : Src)
  /-- AND128 Wd, Sa, Sb (R85). -/
  | and128 (rd : WReg) (ra rb : Src)
  /-- CMP128 Sa, Sb (R87). -/
  | cmp128 (ra rb : Src)
  /-- MUL64 Wd, Sa, Sb (R89). -/
  | mul64 (rd : WReg) (ra rb : Src)
  /-- ABSORB Wd, #k (R101). -/
  | absorb (rd : WReg) (imm : BitVec 8)
  /-- COMBINE Wd, Sh, Sm, Sa: `ra` = h, `rb` = m, `rc` = a (R114). -/
  | combine (rd : WReg) (ra rb rc : Src)
  /-- FINALIZE Wd, Sh, #t: `ra` = hash (R125). -/
  | finalize (rd : WReg) (ra : Src) (imm : BitVec 8)
deriving DecidableEq, Repr

/-- STATUS.ERRCODE (R152). Codes 7 to 15 are never recorded and have no constructor (log 16). -/
inductive ErrCode where
  | noError
  | illegalOpcode
  | reservedField
  | badReg
  | badImm
  | badAddr
  | reservedCtrl
deriving DecidableEq, Repr

end Sys2Proof
end

