-- ==== Sys2Proof/Machine/Bits.lean ====
section
/-! DEFINITION. Bit-field, byte-order and immediate helpers (R10, R12, R41, R65). -/

namespace Sys2Proof.Machine

/-- `lo32(x) = x[31:0]`, as a 64-bit value (R12). -/
def lo32 (x : Word) : Word := (x.extractLsb' 0 32).setWidth 64

/-- `hi32(x) = x[63:32]`, as a 64-bit value (R12). -/
def hi32 (x : Word) : Word := (x.extractLsb' 32 32).setWidth 64

/-- MASK126 (R12): clears the top two bits. -/
def mask126 : Wide := ⟨0x3FFFFFFFFFFFFFFF#64, 0xFFFFFFFFFFFFFFFF#64⟩

/-- MASK127 (R12): 2^127 − 1, the mixing modulus and the mask of the finalizer. -/
def mask127 : Wide := ⟨0x7FFFFFFFFFFFFFFF#64, 0xFFFFFFFFFFFFFFFF#64⟩

/-- Byte `n` of a word, bits 8n+7 : 8n (R41). -/
def byteOf (v : Word) (n : Nat) : Byte := v.extractLsb' (8 * n) 8

/-- The word whose byte `n` is bits 8n+7 : 8n: little-endian (R41, R52). -/
def wordOfBytes (b0 b1 b2 b3 b4 b5 b6 b7 : Byte) : Word :=
  b7 ++ b6 ++ b5 ++ b4 ++ b3 ++ b2 ++ b1 ++ b0

/-- ABSORB's lane count lies in 0..8 (R65). -/
def laneCountOk (imm : BitVec 8) : Bool := decide (imm.toNat ≤ 8)

/-- FINALIZE's imm[7] is 0, so that its tail length lies in 0..127 (R65). -/
def tailLengthOk (imm : BitVec 8) : Bool := !imm.getLsbD 7

/-- FINALIZE's tail length, imm[6:0] (R65). -/
def tailLength (imm : BitVec 8) : Nat := (imm.extractLsb' 0 7).toNat

end Sys2Proof.Machine
end

