-- ==== Sys2Proof/WellFormed.lean ====
section
/-! DEFINITION. Which instructions are well formed: the immediate ranges of R65. The other checks of R66 (opcode,
reserved fields, selectors) leave no ill-formed term, because `Instr` cannot express what they reject. -/

namespace Sys2Proof

/-- Check 4 of R66: the immediate of the instruction is in range (R65). -/
def Instr.wellFormed : Instr → Bool
  | .add128 _ _ _ => true
  | .and128 _ _ _ => true
  | .cmp128 _ _ => true
  | .mul64 _ _ _ => true
  | .absorb _ imm => Machine.laneCountOk imm
  | .combine _ _ _ _ => true
  | .finalize _ _ imm => Machine.tailLengthOk imm

end Sys2Proof
end

