-- ==== Sys2Proof/Decode.lean ====
section
/-! DEFINITION. Reading a command from a 64-bit CMD value (R60..R66), total on every value and rejecting by the error
code of R152, and the encoder written from the same tables. -/

namespace Sys2Proof

/-- The seven opcodes (R62). -/
inductive Opcode where
  | add128 | and128 | cmp128 | mul64 | absorb | combine | finalize
deriving DecidableEq, Repr

/-- The op field of each opcode (R62). -/
def opByte : Opcode → BitVec 8
  | .add128 => 0x01#8
  | .and128 => 0x02#8
  | .cmp128 => 0x03#8
  | .mul64 => 0x04#8
  | .absorb => 0x05#8
  | .combine => 0x06#8
  | .finalize => 0x07#8

/-- Check 1 of R66: the opcode an op field holds, if it is in 0x01..0x07 (R62). -/
def opcodeOf (op : BitVec 8) : Option Opcode :=
  if op = 0x01#8 then some .add128
  else if op = 0x02#8 then some .and128
  else if op = 0x03#8 then some .cmp128
  else if op = 0x04#8 then some .mul64
  else if op = 0x05#8 then some .absorb
  else if op = 0x06#8 then some .combine
  else if op = 0x07#8 then some .finalize
  else none

/-- bits 7:0 (R61). -/
def opField (v : Word) : BitVec 8 := v.extractLsb' 0 8
/-- bits 11:8 (R61). -/
def rdField (v : Word) : BitVec 4 := v.extractLsb' 8 4
/-- bits 15:12 (R61). -/
def raField (v : Word) : BitVec 4 := v.extractLsb' 12 4
/-- bits 19:16 (R61). -/
def rbField (v : Word) : BitVec 4 := v.extractLsb' 16 4
/-- bits 23:20 (R61). -/
def rcField (v : Word) : BitVec 4 := v.extractLsb' 20 4
/-- bits 31:24 (R61). -/
def immField (v : Word) : BitVec 8 := v.extractLsb' 24 8

/-- The bits of a CMD value that must be 0 for an opcode: CMD[63:32] (R60) and the fields R63 lists. -/
def reservedMask : Opcode → Word
  | .add128 | .and128 | .mul64 => 0xFFFFFFFFFFF00000#64
  | .cmp128 => 0xFFFFFFFFFFF00F00#64
  | .absorb => 0xFFFFFFFF00FFF000#64
  | .combine => 0xFFFFFFFFFF000000#64
  | .finalize => 0xFFFFFFFF00FF0000#64

/-- A destination selector: 0..7 name W0..W7, 8..15 are illegal (R22, R64). -/
def destOf (d : BitVec 4) : Option WReg :=
  if h : d.toNat < 8 then some ⟨d.toNat, h⟩ else none

/-- A source selector: 0..7 name W0..W7, 8 is KR, 9..15 are illegal (R22, R64). -/
def srcOf (s : BitVec 4) : Option Src :=
  if h : s.toNat < 8 then some (.w ⟨s.toNat, h⟩)
  else if s = 8#4 then some .kr
  else none

/-- Check 3 of R66: the instruction the selector and immediate fields of a CMD value give, if every selector is legal
(R64). All four selectors are rejected with the same code, so their order shows in no result. -/
def operandsOf (op : Opcode) (v : Word) : Option Instr :=
  match op with
  | .add128 => do
    let rd ← destOf (rdField v)
    let ra ← srcOf (raField v)
    let rb ← srcOf (rbField v)
    pure (.add128 rd ra rb)
  | .and128 => do
    let rd ← destOf (rdField v)
    let ra ← srcOf (raField v)
    let rb ← srcOf (rbField v)
    pure (.and128 rd ra rb)
  | .cmp128 => do
    let ra ← srcOf (raField v)
    let rb ← srcOf (rbField v)
    pure (.cmp128 ra rb)
  | .mul64 => do
    let rd ← destOf (rdField v)
    let ra ← srcOf (raField v)
    let rb ← srcOf (rbField v)
    pure (.mul64 rd ra rb)
  | .absorb => do
    let rd ← destOf (rdField v)
    pure (.absorb rd (immField v))
  | .combine => do
    let rd ← destOf (rdField v)
    let ra ← srcOf (raField v)
    let rb ← srcOf (rbField v)
    let rc ← srcOf (rcField v)
    pure (.combine rd ra rb rc)
  | .finalize => do
    let rd ← destOf (rdField v)
    let ra ← srcOf (raField v)
    pure (.finalize rd ra (immField v))

/-- The four checks of R66, in their order, stopping at the first failure (R156). -/
def decodeCmd (v : Word) : Except ErrCode Instr :=
  match opcodeOf (opField v) with
  | none => .error .illegalOpcode
  | some op =>
    if v &&& reservedMask op = 0#64 then
      match operandsOf op v with
      | none => .error .badReg
      | some i => if i.wellFormed then .ok i else .error .badImm
    else .error .reservedField

/-- The host's view of the decoder: the instruction read from the command word `w`, whose bits at and above `nbits`
are 0. The command word is CMD[31:0] and the port carries it as one 64-bit value, so no byte order enters (R60; log 15). -/
def decodeTableWord (nbits w : Nat) : Option Instr :=
  match decodeCmd (BitVec.ofNat 64 (w % 2 ^ nbits)) with
  | .ok i => some i
  | .error _ => none

/-- The selector of a destination register (R22). -/
def destSelector (d : WReg) : BitVec 4 := BitVec.ofNat 4 d.val

/-- The selector of a source (R22). -/
def srcSelector : Src → BitVec 4
  | .w i => BitVec.ofNat 4 i.val
  | .kr => 8#4

/-- `word = imm<<24 | rc<<20 | rb<<16 | ra<<12 | rd<<8 | op` (R61). -/
def assemble (op : Opcode) (rd ra rb rc : BitVec 4) (imm : BitVec 8) : BitVec 32 :=
  imm ++ rc ++ rb ++ ra ++ rd ++ opByte op

/-- The command word of an instruction (R62, R68). -/
def encode : Instr → BitVec 32
  | .add128 rd ra rb => assemble .add128 (destSelector rd) (srcSelector ra) (srcSelector rb) 0#4 0#8
  | .and128 rd ra rb => assemble .and128 (destSelector rd) (srcSelector ra) (srcSelector rb) 0#4 0#8
  | .cmp128 ra rb => assemble .cmp128 0#4 (srcSelector ra) (srcSelector rb) 0#4 0#8
  | .mul64 rd ra rb => assemble .mul64 (destSelector rd) (srcSelector ra) (srcSelector rb) 0#4 0#8
  | .absorb rd imm => assemble .absorb (destSelector rd) 0#4 0#4 0#4 imm
  | .combine rd ra rb rc =>
    assemble .combine (destSelector rd) (srcSelector ra) (srcSelector rb) (srcSelector rc) 0#8
  | .finalize rd ra imm => assemble .finalize (destSelector rd) (srcSelector ra) 0#4 0#4 imm

/-- The CMD value that issues an instruction, `zext_64(encoding)` (R70). -/
def encodeCmd (i : Instr) : Word := (encode i).setWidth 64

end Sys2Proof
end

