-- ==== Sys2Proof/Config.lean ====
section
/-! DEFINITION. What is fixed when the block is built (R8, R24) and what the spec leaves free (R49, R170, R171).
Every constant here is opaque: it has no body, so nothing can be proved of its value, and a theorem that mentions
one holds for every value. -/

namespace Sys2Proof

/-- The read-only constant store (R24). -/
structure ConstStore where
  magic       : Vector Word 16
  roundConst  : Wide
  finalConst0 : Word
  finalConst1 : Word
deriving DecidableEq, Repr

/-- `MAGIC[j]` (R24). The store has sixteen entries; an index beyond them, which no well-formed ABSORB
uses (R100), gives 0. -/
def ConstStore.magicAt (c : ConstStore) (j : Nat) : Word := (c.magic[j]?).getD 0

namespace Config

/-- The build-time values of MAGIC[0..15], an implementation parameter (R8; log 5). -/
opaque magic : Vector Word 16

/-- The build-time value of ROUND_CONST, an implementation parameter (R8; log 5). -/
opaque roundConst : Wide

/-- The build-time value of FINAL_CONST0, an implementation parameter (R8; log 5). -/
opaque finalConst0 : Word

/-- The build-time value of FINAL_CONST1, an implementation parameter (R8; log 5). -/
opaque finalConst1 : Word

/-- The constant store as built (R8, R24). -/
def consts : ConstStore := ⟨magic, roundConst, finalConst0, finalConst1⟩

/-- R49's draw: how many STATUS reads can still return BUSY = 1 after the CMD write with this draw number.
It stands for LAT(op) and the host's timing (R9, R176), which no rule uses otherwise (log 6). -/
opaque busyReads : Nat → Nat

/-- The value of a limb or BUF word that R170 and R171 leave unspecified, by draw number and location
(logs 3, 4). -/
opaque freeWord : Nat → Nat → Word

end Config

end Sys2Proof
end

