-- ==== Sys2Proof/Machine/State.lean ====
section
/-! DEFINITION. Everything the spec gives the machine (R20..R32), as plain data, beside the model's own record of the
host's side of the port; the reasons a step can stop; the state after power-on reset (R170). -/

namespace Sys2Proof.Machine

/-- The model faults of R160. None of them is a hardware event, and no step stops with one: the machine goes on, as the
hardware does, and the fault is recorded in `State.modelFault`, where `Safety` reads it (logs 2, 11). -/
inductive Fault where
  /-- UNWRITTEN_READ: a command or a host read read a W limb or BUF word whose written mark is clear (R23). Recorded in
  `State.modelFault` by every such read, and in the `Response` of a host read. SAFE for a claim that asks for no
  recorded fault; UNSAFE for one that does not, because a limb nothing has written holds the reset value 0 (log 1). -/
  | unwrittenRead
  /-- ERR_VALUE_READ: the use of the 0 that an erroneous port read returns (R43, R44). Recorded in `State.modelFault`, and in
  the `Response`, by every erroneous read that hands its value to the host, `Access.read` (log 11). An erroneous
  `Access.discard` hands over no value, so nothing can use one. SAFE for a claim that asks for no recorded fault. -/
  | errValueRead
deriving DecidableEq, Repr

/-- Why `exec` gives an instruction no meaning. -/
inductive Refusal where
  /-- Raised by an arm of `exec` that has no meaning yet; no arm of this model raises it. SAFE: the machine stops. -/
  | notModelled (mnemonic : String)
deriving DecidableEq, Repr

/-- STATUS.CMP (R30). The pattern 11 is never written and has no constructor (log 16). -/
inductive CmpResult where
  | eq | gt | lt
deriving DecidableEq, Repr

/-- The written marks of the two limbs of one W register (R23). -/
structure LimbMarks where
  hi : Bool
  lo : Bool
deriving DecidableEq, Repr

/-- The bytes of BUF that have been written since reset, as (byte number, byte) pairs with strictly rising numbers. An
unlisted byte has no value (R25, R41; log 10). -/
abbrev Memory := List Host.Cell

/-- A byte offset on the host port, 9 bits (R40). -/
abbrev Offset := BitVec 9

/-- One access of the host to the port; every access moves 64 bits (R40, R70). -/
inductive Access where
  /-- HRD off, whose value the host takes. -/
  | read (off : Offset)
  /-- HRD off, whose value the host throws away: the block performs it like any read, and nobody has its value (log 11). -/
  | discard (off : Offset)
  /-- HWR off, v. -/
  | write (off : Offset) (v : Word)
deriving DecidableEq, Repr

/-- What the port returned to one host read whose value the host takes. `fault` is the model fault that this value carries to whoever uses it, if
any (R23, R43, R44, R160; logs 9, 11). -/
structure Response where
  off   : Offset
  data  : Word
  fault : Option Fault
deriving DecidableEq, Repr

/-- The in-flight command: the CMD value it was issued with, and how many STATUS reads may still be performed before it
completes (R32, R49; log 6). -/
structure InFlight where
  word  : Word
  polls : Nat
deriving DecidableEq, Repr

/-- The state of the block (R20), and the host's side of its port. -/
structure State where
  /-- W0..W7 (R21). -/
  w          : Vector Wide 8
  /-- The written marks of the W limbs (R23). -/
  wMarks     : Vector LimbMarks 8
  /-- The constant store (R24). -/
  consts     : ConstStore
  /-- BUF; its written marks are which bytes are listed (R23, R25; log 10). -/
  buf        : Memory
  /-- STATUS.ERR (R26). -/
  err        : Bool
  /-- STATUS.ERRCODE (R26, R152). -/
  errCode    : ErrCode
  /-- STATUS.CMP (R26, R30). -/
  cmp        : CmpResult
  /-- The CMD readback value (R28). -/
  cmd        : Word
  /-- The in-flight command, if any; STATUS.BUSY is whether there is one (R26, R32). -/
  inflight   : Option InFlight
  /-- MODEL's own: the accesses the host has not had performed yet, in issue order (R48; log 8). -/
  pending    : List Access
  /-- MODEL's own: what the port returned to the host's reads, newest first (log 9). -/
  responses  : List Response
  /-- MODEL's own: the first model fault of the run (R160; log 2). -/
  modelFault : Option Fault
  /-- MODEL's own: the number of the next free value (log 6). -/
  draws      : Nat
deriving DecidableEq, Repr

/-- The state after power-on reset (R170), with no host access issued yet. The W limbs, which R170 leaves unspecified,
hold 0 with every mark clear (DESIGN CHOICE, log 1); no byte of BUF is listed; `draws` starts at 0 (DESIGN CHOICE, log 6). -/
def State.reset : State where
  w          := Vector.replicate 8 Wide.zero
  wMarks     := Vector.replicate 8 ⟨false, false⟩
  consts     := Config.consts
  buf        := []
  err        := false
  errCode    := .noError
  cmp        := .eq
  cmd        := 0#64
  inflight   := none
  pending    := []
  responses  := []
  modelFault := none
  draws      := 0

end Sys2Proof.Machine
end

