-- ==== Sys2Proof/Machine/Buffer.lean ====
section
/-! DEFINITION. The block buffer as byte memory (R25, R41): one canonical list of written bytes, read and written a byte at
a time, and the 64-bit words made of eight bytes in little-endian order. -/

namespace Sys2Proof.Machine

/-- The canonical form: byte numbers strictly rising, and all of them bytes of BUF (0..127, R41). An unlisted byte has no
value, so no listed byte can equal what an unlisted one reads as (log 10). -/
abbrev Memory.wf (m : Memory) : Prop :=
  m.Pairwise (fun x y => x.1 < y.1) ∧ ∀ c ∈ m, c.1 < 128

/-- BUF byte `j`, if it has been written since reset (R23, R41). -/
def readByte : Memory → Nat → Option Byte
  | [], _ => none
  | (a, b) :: m, j => if a = j then some b else readByte m j

/-- Write BUF byte `j`, keeping the canonical form. -/
def writeByte : Memory → Nat → Byte → Memory
  | [], j, v => [(j, v)]
  | (a, b) :: m, j, v =>
    if j < a then (j, v) :: (a, b) :: m
    else if j = a then (j, v) :: m
    else (a, b) :: writeByte m j v

/-- BUF word `k`, if all of its bytes have been written: byte 8k+n is bits 8n+7 : 8n (R41). -/
def readWord (m : Memory) (k : Nat) : Option Word := do
  let b0 ← readByte m (8 * k)
  let b1 ← readByte m (8 * k + 1)
  let b2 ← readByte m (8 * k + 2)
  let b3 ← readByte m (8 * k + 3)
  let b4 ← readByte m (8 * k + 4)
  let b5 ← readByte m (8 * k + 5)
  let b6 ← readByte m (8 * k + 6)
  let b7 ← readByte m (8 * k + 7)
  pure (wordOfBytes b0 b1 b2 b3 b4 b5 b6 b7)

/-- Write the lowest `n` bytes of `v` at BUF bytes 8k .. 8k+n−1 (R41). -/
def writeBytes (m : Memory) (k : Nat) (v : Word) : Nat → Memory
  | 0 => m
  | n + 1 => writeByte (writeBytes m k v n) (8 * k + n) (byteOf v n)

/-- Replace all 64 bits of BUF word `k` (R46). -/
def writeWord (m : Memory) (k : Nat) (v : Word) : Memory := writeBytes m k v 8

/-- Every BUF word is written as a whole or not at all: the host writes whole words (R40, R46). -/
abbrev Memory.wholeWords (m : Memory) : Prop :=
  ∀ k < 16, (∀ n < 8, readByte m (8 * k + n) = none) ∨ (∀ n < 8, readByte m (8 * k + n) ≠ none)

end Sys2Proof.Machine
end

