-- ==== Sys2Proof/Machine/Ops.lean ====
section
/-! DEFINITION. The named operations over the registers, BUF, the error record and the reset, shared by all meanings. -/

namespace Sys2Proof.Machine

/-! ## Working registers (R21, R23) -/

/-- Read W[i] (R12, R21). -/
def State.wide (s : State) (i : WReg) : Wide := s.w[i]

/-- The written marks of W[i] (R23). -/
def State.marks (s : State) (i : WReg) : LimbMarks := s.wMarks[i]

/-- `W[i] <- v`: both limbs at once, setting both written marks (R21, R23, R80). -/
def State.setWide (s : State) (i : WReg) (v : Wide) : State :=
  { s with w := s.w.set i v, wMarks := s.wMarks.set i ⟨true, true⟩ }

/-- The host's write of W[i].lo, which leaves W[i].hi unchanged (R46). -/
def State.setLo (s : State) (i : WReg) (v : Word) : State :=
  { s with w := s.w.set i ⟨(s.wide i).hi, v⟩, wMarks := s.wMarks.set i ⟨(s.marks i).hi, true⟩ }

/-- The host's write of W[i].hi, which leaves W[i].lo unchanged (R46). -/
def State.setHi (s : State) (i : WReg) (v : Word) : State :=
  { s with w := s.w.set i ⟨v, (s.wide i).lo⟩, wMarks := s.wMarks.set i ⟨true, (s.marks i).lo⟩ }

/-! ## Block buffer (R25, R41, R46) -/

/-- BUF byte `j`, if written since reset. -/
def State.bufByte (s : State) (j : Nat) : Option Byte := readByte s.buf j

/-- The written mark of BUF word `k` (R23; log 10). -/
def State.bufMarked (s : State) (k : Nat) : Bool := (readWord s.buf k).isSome

/-- BUF[k]. A word not written since reset is unspecified (R170): a free value (log 3). -/
def State.bufWord (s : State) (k : Nat) : Word :=
  (readWord s.buf k).getD (Config.freeWord s.draws k)

/-- The host's write of BUF[k] (R46). -/
def State.setBufWord (s : State) (k : Nat) (v : Word) : State :=
  { s with buf := writeWord s.buf k v }

/-! ## Model faults (R160) -/

/-- Record a model fault, keeping the first of the run (log 2). -/
def State.recordFault (s : State) (f : Fault) : State :=
  match s.modelFault with
  | none => { s with modelFault := some f }
  | some _ => s

/-- What reading a limb or word does beside giving its value: nothing when its mark is set; UNWRITTEN_READ is recorded
when it is clear (R23, R160; log 2). -/
def State.noteRead (s : State) (marked : Bool) : State :=
  if marked then s else s.recordFault .unwrittenRead

/-! ## Taking an error, and returning from one (R151..R154) -/

/-- `raise CmdError(code)`, and every access error: the first error is kept, and nothing else changes (R151). -/
def State.raise (s : State) (code : ErrCode) : State :=
  if s.err then s else { s with err := true, errCode := code }

/-- CTRL.CLR_ERR (R29, R154). -/
def State.clearErr (s : State) : State :=
  { s with err := false, errCode := .noError }

/-! ## Reset (R170, R171) -/

/-- W[i] after a SOFT_RESET: unspecified (R170, R171), so a free value (log 4). -/
def freeWide (draw : Nat) (i : WReg) : Wide :=
  ⟨Config.freeWord draw (17 + 2 * i.val), Config.freeWord draw (16 + 2 * i.val)⟩

/-- CTRL.SOFT_RESET: the state of R170, every written mark clear (R171). The constant store keeps its values (R24, R172).
The host's side of the port and the record of a model fault are not the block's state and stay (log 17). -/
def State.softReset (s : State) : State :=
  { s with
    w        := Vector.ofFn (freeWide s.draws)
    wMarks   := Vector.replicate 8 ⟨false, false⟩
    buf      := []
    err      := false
    errCode  := .noError
    cmp      := .eq
    cmd      := 0#64
    inflight := none
    draws    := s.draws + 1 }

end Sys2Proof.Machine
end

