-- ==== Sys2Proof/Machine/Flags.lean ====
section
/-! DEFINITION. The one flag, STATUS.CMP, and the STATUS word it is read through (R26, R30, R86, R152). -/

namespace Sys2Proof.Machine

/-- `CMP128(a, b)`: high limbs first, low limbs only if the high limbs are equal; unsigned (R86). -/
def cmp128 (a b : Wide) : CmpResult :=
  if a.hi ≠ b.hi then (if b.hi < a.hi then .gt else .lt)
  else if a.lo ≠ b.lo then (if b.lo < a.lo then .gt else .lt)
  else .eq

/-- The two bits of STATUS.CMP (R30). -/
def cmpBits : CmpResult → BitVec 2
  | .eq => 0b00#2
  | .gt => 0b01#2
  | .lt => 0b10#2

/-- The four bits of STATUS.ERRCODE (R152). -/
def errCodeBits : ErrCode → BitVec 4
  | .noError => 0#4
  | .illegalOpcode => 1#4
  | .reservedField => 2#4
  | .badReg => 3#4
  | .badImm => 4#4
  | .badAddr => 5#4
  | .reservedCtrl => 6#4

/-- STATUS.BUSY: a command is in flight (R26, R32). -/
def State.busy (s : State) : Bool := s.inflight.isSome

/-- The STATUS register: CMP in 9:8, ERRCODE in 7:4, ERR in 1, BUSY in 0, every other bit 0 (R26). -/
def State.statusWord (s : State) : Word :=
  0#54 ++ cmpBits s.cmp ++ errCodeBits s.errCode ++ 0#2 ++ BitVec.ofBool s.err ++ BitVec.ofBool s.busy

/-- `STATUS.CMP <- r` (R87). -/
def State.setCmp (s : State) (r : CmpResult) : State := { s with cmp := r }

end Sys2Proof.Machine
end

