-- ==== Sys2Proof/Machine/Operands.lean ====
section
/-! DEFINITION. Every operand form of a command: the source selectors, with the limbs a command reads through them
(R22, R23, R80, R89). -/

namespace Sys2Proof.Machine

/-- `SRC(s)`: W[i], or ROUND_CONST through KR (R22). -/
def State.src (s : State) : Src → Wide
  | .w i => s.wide i
  | .kr => s.consts.roundConst

/-- Whether both limbs a source names are marked written. The constant store always is (R23, R172). -/
def State.srcMarked (s : State) : Src → Bool
  | .w i => (s.marks i).hi && (s.marks i).lo
  | .kr => true

/-- Whether the low limb a source names is marked written (R89). -/
def State.srcLoMarked (s : State) : Src → Bool
  | .w i => (s.marks i).lo
  | .kr => true

/-- Whether every BUF word below `n` is marked written (R23, R101). -/
def State.bufMarkedBelow (s : State) : Nat → Bool
  | 0 => true
  | n + 1 => s.bufMarkedBelow n && s.bufMarked n

end Sys2Proof.Machine
end

