-- ==== Sys2Proof/Machine/WideInt.lean ====
section
/-! DEFINITION. The wide-integer family: ADD128, AND128, CMP128, MUL64 (41_wide_int.md). -/

namespace Sys2Proof.Machine

/-- `ADD128(a, b)`: the carry is 1 exactly when the low sum is below the FIRST operand's low limb (R81). -/
def add128 (a b : Wide) : Wide :=
  let lo := a.lo + b.lo
  let carry : Word := if lo < a.lo then 1#64 else 0#64
  ⟨a.hi + b.hi + carry, lo⟩

/-- `AND128(a, b)`, per limb (R84). -/
def and128 (a b : Wide) : Wide := ⟨a.hi &&& b.hi, a.lo &&& b.lo⟩

/-- `MUL64x64(a, b)`: the exact product, split in its two limbs (R88). -/
def mul64x64 (a b : Word) : Wide :=
  let p : BitVec 128 := a.setWidth 128 * b.setWidth 128
  ⟨p.extractLsb' 64 64, p.extractLsb' 0 64⟩

/-- ADD128 Wd, Sa, Sb (R82). -/
def execAdd128 (rd : WReg) (ra rb : Src) (s : State) : Host.Outcome State Fault Refusal :=
  .next ((s.noteRead (s.srcMarked ra && s.srcMarked rb)).setWide rd (add128 (s.src ra) (s.src rb)))

/-- AND128 Wd, Sa, Sb (R85). -/
def execAnd128 (rd : WReg) (ra rb : Src) (s : State) : Host.Outcome State Fault Refusal :=
  .next ((s.noteRead (s.srcMarked ra && s.srcMarked rb)).setWide rd (and128 (s.src ra) (s.src rb)))

/-- CMP128 Sa, Sb: STATUS.CMP only (R87). -/
def execCmp128 (ra rb : Src) (s : State) : Host.Outcome State Fault Refusal :=
  .next ((s.noteRead (s.srcMarked ra && s.srcMarked rb)).setCmp (cmp128 (s.src ra) (s.src rb)))

/-- MUL64 Wd, Sa, Sb: the low limbs only; the high limbs are not read (R89). -/
def execMul64 (rd : WReg) (ra rb : Src) (s : State) : Host.Outcome State Fault Refusal :=
  .next ((s.noteRead (s.srcLoMarked ra && s.srcLoMarked rb)).setWide rd
    (mul64x64 (s.src ra).lo (s.src rb).lo))

end Sys2Proof.Machine
end

