-- ==== Sys2Proof/Machine/Absorber.lean ====
section
/-! DEFINITION. The block absorber: ABSORB (42_block_absorber.md). -/

namespace Sys2Proof.Machine

/-- The running 128-bit sum of `ABSORB_F` after the first `n` lanes, taken in increasing order: word `a` of lane i gets
MAGIC[2i] added and word `b` gets MAGIC[2i+1], each mod 2^64 (R100). -/
def absorbSum (magic block : Nat → Word) : Nat → Wide
  | 0 => Wide.zero
  | i + 1 =>
    add128 (absorbSum magic block i)
      (mul64x64 (block (2 * i) + magic (2 * i)) (block (2 * i + 1) + magic (2 * i + 1)))

/-- `ABSORB_F(k)` on the words `block` (R100): the sum of `k` lanes, masked to 126 bits. -/
def absorbF (magic block : Nat → Word) (k : Nat) : Wide := and128 (absorbSum magic block k) mask126

/-- ABSORB Wd, #k: reads BUF[0..2k−1] and no other word (R101, R102). A lane count above 8, which the decoder never
lets through, is BAD_IMM (R65; log 13). -/
def execAbsorb (rd : WReg) (imm : BitVec 8) (s : State) : Host.Outcome State Fault Refusal :=
  if laneCountOk imm then
    .next ((s.noteRead (s.bufMarkedBelow (2 * imm.toNat))).setWide rd
      (absorbF s.consts.magicAt s.bufWord imm.toNat))
  else .next (s.raise .badImm)

end Sys2Proof.Machine
end

