-- ==== Sys2Proof/Machine/Finalizer.lean ====
section
/-! DEFINITION. The two-stage modular finalizer: FINALIZE (44_finalizer.md). -/

namespace Sys2Proof.Machine

/-- Steps 1 to 3: add the tail's bit length, add 1 at or above 2^127 − 1, mask to 127 bits (R120). -/
def finalMix (hash : Wide) (tailLen : Nat) : Wide :=
  let h1 := add128 hash (Wide.ofLow (BitVec.ofNat 64 tailLen * 8#64))
  let h2 := if cmp128 h1 mask127 ≠ .lt then add128 h1 (Wide.ofLow 1#64) else h1
  and128 h2 mask127

/-- Step 4: the fold into the lane X (R121). -/
def finalX (hash : Wide) : Word :=
  let x := hash.hi + (hash.lo >>> 32)
  ((x + (x >>> 32) + 1#64) >>> 32) + hash.hi

/-- Step 4: the fold into the lane Y (R121). -/
def finalY (hash : Wide) : Word := (finalX hash <<< 32) + hash.lo

/-- Steps 5 and 6: add a final constant, and 0x101 once if the addition wrapped (R122). -/
def addFinalConst (x c : Word) : Word :=
  let a := x + c
  if a < x then a + 0x101#64 else a

/-- Step 8: one reduction, both operands read from the old hash (R123). -/
def finalReduce (hash : Wide) : Wide := add128 (mul64x64 hash.hi 0x101#64) (Wide.ofLow hash.lo)

/-- Step 9: the two adjustments, the second reading the result of the first (R124). -/
def finalCanonical (hash : Wide) : Word :=
  let r := if hash.hi ≠ 0#64 then hash.lo + 0x101#64 else hash.lo
  if 0xFFFFFFFFFFFFFEFE#64 < r then r + 0x101#64 else r

/-- `FINAL_F(hash, tailLen)` (R120..R124). -/
def finalF (finalConst0 finalConst1 : Word) (hash : Wide) (tailLen : Nat) : Word :=
  let h := finalMix hash tailLen
  let a := addFinalConst (finalX h) finalConst0
  let b := addFinalConst (finalY h) finalConst1
  finalCanonical (finalReduce (finalReduce (mul64x64 a b)))

/-- FINALIZE Wd, Sh, #t: W[rd] <- (0, digest); STATUS.CMP is not written (R125). An immediate with bit 7 set, which the
decoder never lets through, is BAD_IMM (R65; log 13). -/
def execFinalize (rd : WReg) (ra : Src) (imm : BitVec 8) (s : State) : Host.Outcome State Fault Refusal :=
  if tailLengthOk imm then
    .next ((s.noteRead (s.srcMarked ra)).setWide rd
      (Wide.ofLow (finalF s.consts.finalConst0 s.consts.finalConst1 (s.src ra) (tailLength imm))))
  else .next (s.raise .badImm)

end Sys2Proof.Machine
end

