-- ==== Sys2Proof/Machine/Reducer.lean ====
section
/-! DEFINITION. The multiply-accumulate reducer: COMBINE (43_mac_reducer.md). -/

namespace Sys2Proof.Machine

/-- The reduction, carry propagation and reassembly from the seven diagonal sums and the addend, with every `+` and `<<`
wrapping mod 2^64 and the shifts in the order given (R112, R113). -/
def combineReduce (c0 c1 c2 c3 c4 c5 c6 : Word) (a : Wide) : Wide :=
  let r2 := c2 + (c6 <<< 1) + a.hi
  let r3 := c3 + (r2 >>> 32)
  let r0 := c0 + (c4 <<< 1) + lo32 a.lo + (r3 >>> 31)
  let r1 := c1 + (c5 <<< 1) + hi32 a.lo + (r0 >>> 32)
  ⟨(((r3 <<< 33) >>> 1) ||| ((r2 <<< 32) >>> 32)) + (r1 >>> 32),
   (r1 <<< 32) ||| ((r0 <<< 32) >>> 32)⟩

/-- `COMBINE_F(h, m, a)`: the four-limb split (R110), the diagonal sums (R111), then `combineReduce`. -/
def combineF (h m a : Wide) : Wide :=
  let h0 := lo32 h.lo
  let h1 := hi32 h.lo
  let h2 := lo32 h.hi
  let h3 := hi32 h.hi
  let m0 := lo32 m.lo
  let m1 := hi32 m.lo
  let m2 := lo32 m.hi
  let m3 := hi32 m.hi
  combineReduce
    (h0 * m0)
    (h0 * m1 + h1 * m0)
    (h0 * m2 + h1 * m1 + h2 * m0)
    (h0 * m3 + h1 * m2 + h2 * m1 + h3 * m0)
    (h1 * m3 + h2 * m2 + h3 * m1)
    (h2 * m3 + h3 * m2)
    (h3 * m3)
    a

/-- COMBINE Wd, Sh, Sm, Sa (R114). -/
def execCombine (rd : WReg) (ra rb rc : Src) (s : State) : Host.Outcome State Fault Refusal :=
  .next ((s.noteRead (s.srcMarked ra && s.srcMarked rb && s.srcMarked rc)).setWide rd
    (combineF (s.src ra) (s.src rb) (s.src rc)))

end Sys2Proof.Machine
end

