-- ==== Sys2Proof/Machine/Dispatch.lean ====
section
/-! DEFINITION. One arm per command (R62). -/

namespace Sys2Proof.Machine

/-- The effect of a command at its completion (R32, R155). -/
def exec (i : Instr) (s : State) : Host.Outcome State Fault Refusal :=
  match i with
  | .add128 rd ra rb => Sys2Proof.Machine.execAdd128 rd ra rb s
  | .and128 rd ra rb => Sys2Proof.Machine.execAnd128 rd ra rb s
  | .cmp128 ra rb => Sys2Proof.Machine.execCmp128 ra rb s
  | .mul64 rd ra rb => Sys2Proof.Machine.execMul64 rd ra rb s
  | .absorb rd imm => Sys2Proof.Machine.execAbsorb rd imm s
  | .combine rd ra rb rc => Sys2Proof.Machine.execCombine rd ra rb rc s
  | .finalize rd ra imm => Sys2Proof.Machine.execFinalize rd ra imm s

end Sys2Proof.Machine
end

