-- ==== Sys2Proof/Machine/Port.lean ====
section
/-! DEFINITION. The host port: its address map and what a read and a write of each address do (20_memory.md,
10_state.md R28, R29). -/

namespace Sys2Proof.Machine

/-- What a port offset names (R42). -/
inductive Target where
  | buf (k : Fin 16)
  | lo (i : WReg)
  | hi (i : WReg)
  | cmd
  | status
  | ctrl
  /-- misaligned (R43) or unmapped (R44). -/
  | bad
deriving DecidableEq, Repr

/-- The offset of CMD (R42). -/
def cmdOffset : Offset := 0x100#9
/-- The offset of STATUS (R42). -/
def statusOffset : Offset := 0x108#9
/-- The offset of CTRL (R42). -/
def ctrlOffset : Offset := 0x110#9
/-- The offset of BUF[k] (R42). -/
def bufOffset (k : Nat) : Offset := BitVec.ofNat 9 (8 * k)
/-- The offset of W[i].lo (R42). -/
def loOffset (i : WReg) : Offset := BitVec.ofNat 9 (0x080 + 16 * i.val)
/-- The offset of W[i].hi (R42). -/
def hiOffset (i : WReg) : Offset := BitVec.ofNat 9 (0x088 + 16 * i.val)

/-- The address map (R42), with misaligned and unmapped offsets (R43, R44). -/
def targetOf (off : Offset) : Target :=
  let n := off.toNat
  if n % 8 ≠ 0 then .bad
  else if n < 0x080 then .buf (Fin.ofNat 16 (n / 8))
  else if n < 0x100 then
    (if n % 16 = 0 then .lo (Fin.ofNat 8 ((n - 0x080) / 16)) else .hi (Fin.ofNat 8 ((n - 0x080) / 16)))
  else if n = 0x100 then .cmd
  else if n = 0x108 then .status
  else if n = 0x110 then .ctrl
  else .bad

/-- The port returns `v` to a host read at `off`. If the limb or word read was not marked written, the read is the model
fault UNWRITTEN_READ (R23; logs 2, 9). -/
def State.respond (s : State) (off : Offset) (v : Word) (marked : Bool) : State :=
  { s.noteRead marked with
    responses := ⟨off, v, if marked then none else some .unwrittenRead⟩ :: s.responses }

/-- An erroneous read whose value the host takes: BAD_ADDR is recorded, 0 is returned, and the model treats the read as
the fault ERR_VALUE_READ (R43, R44, R160; log 11). -/
def State.respondBad (s : State) (off : Offset) : State :=
  { (s.raise .badAddr).recordFault .errValueRead with
    responses := ⟨off, 0#64, some .errValueRead⟩ :: s.responses }

/-- What a read at `off` finds, with whether it is marked written (R23, R42); nothing at a misaligned or unmapped offset
(R43, R44). -/
def State.portContents (s : State) (off : Offset) : Option (Word × Bool) :=
  match targetOf off with
  | .buf k => some (s.bufWord k.val, s.bufMarked k.val)
  | .lo i => some ((s.wide i).lo, (s.marks i).lo)
  | .hi i => some ((s.wide i).hi, (s.marks i).hi)
  | .cmd => some (s.cmd, true)
  | .status => some (s.statusWord, true)
  | .ctrl => some (0#64, true)
  | .bad => none

/-- `MemRead(off, 8)`, whose value the host takes (R40, R42 to R47). -/
def State.readPort (s : State) (off : Offset) : State :=
  match s.portContents off with
  | some (v, marked) => s.respond off v marked
  | none => s.respondBad off

/-- `MemRead(off, 8)`, whose value the host throws away: a read of something unwritten is still UNWRITTEN_READ (R23) and an
erroneous one still records BAD_ADDR (R43, R44), but no 0 is used (R160; log 11). -/
def State.discardPort (s : State) (off : Offset) : State :=
  match s.portContents off with
  | some (_, marked) => s.noteRead marked
  | none => s.raise .badAddr

/-- A CMD write: the readback value is stored in any case; the command is dropped while STATUS.ERR = 1, and is in flight
otherwise (R28, R32, R153; logs 6, 7). -/
def State.issue (s : State) (v : Word) : State :=
  if s.err then { s with cmd := v }
  else { s with cmd := v, inflight := some ⟨v, Config.busyReads s.draws⟩, draws := s.draws + 1 }

/-- A CTRL write (R29): any bit above 1 is RESERVED_CTRL and no action; SOFT_RESET goes before CLR_ERR. -/
def State.writeCtrl (s : State) (v : Word) : State :=
  if v >>> 2 ≠ 0#64 then s.raise .reservedCtrl
  else if v.getLsbD 0 then s.softReset
  else if v.getLsbD 1 then s.clearErr
  else s

/-- `MemWrite(off, 8, v)` (R40, R42 to R47). -/
def State.writePort (s : State) (off : Offset) (v : Word) : State :=
  match targetOf off with
  | .buf k => s.setBufWord k.val v
  | .lo i => s.setLo i v
  | .hi i => s.setHi i v
  | .cmd => s.issue v
  | .status => s.raise .badAddr
  | .ctrl => s.writeCtrl v
  | .bad => s.raise .badAddr

/-- Whether an access is a STATUS read, the one access that a command in flight does not hold back (R48, R49). -/
def Access.isStatusRead : Access → Bool
  | .read off => decide (off = statusOffset)
  | .discard off => decide (off = statusOffset)
  | .write _ _ => false

/-- Perform one host access (R48). -/
def State.perform (s : State) : Access → State
  | .read off => s.readPort off
  | .discard off => s.discardPort off
  | .write off v => s.writePort off v

end Sys2Proof.Machine
end

