-- ==== Sys2Proof/Machine/Sequence.lean ====
section
/-! DEFINITION. The order of events: a command in flight and the accesses that wait for it (R32, R48, R49). -/

namespace Sys2Proof.Machine

/-- Completion of the command whose CMD value is `v`: the checks of R66, then its effect, or the recording of its error
and nothing else (R66, R151, R155; log 7). -/
def complete (v : Word) (s : State) : Host.Outcome State Fault Refusal :=
  match decodeCmd v with
  | .ok i => exec i s
  | .error code => .next (s.raise code)

/-- Whether the next event is a STATUS read performed while `c` is in flight: the host's next access is one, and the draw
of R49 still allows it (log 6). -/
def State.pollIsNext (s : State) (c : InFlight) : Bool :=
  decide (c.polls ≠ 0) && s.pending.head?.any Access.isStatusRead

/-- The host's next access, a STATUS read, performed while `c` is in flight: BUSY is 1 and every other field is as before
the command (R49). -/
def State.poll (s : State) (c : InFlight) : State :=
  match s.pending with
  | [] => s
  | a :: rest => { s with pending := rest, inflight := some { c with polls := c.polls - 1 } }.perform a

/-- The next event while `c` is in flight: a STATUS read, or the completion; every other access waits (R48, R49). -/
def stepInFlight (c : InFlight) (s : State) : Host.Outcome State Fault Refusal :=
  if s.pollIsNext c then .next (s.poll c)
  else complete c.word { s with inflight := none }

/-- The next event with no command in flight: the host's next access, or nothing at all (R48, R170). -/
def stepIdle (s : State) : Host.Outcome State Fault Refusal :=
  match s.pending with
  | [] => .next s
  | a :: rest => .next ({ s with pending := rest }.perform a)

/-- The CMD value that holds the table word `w` in its low `nbits` bits (R60; log 15). -/
def fetchWord (nbits w : Nat) : Word := BitVec.ofNat 64 (w % 2 ^ nbits)

/-- `s` as the host's CMD write of a table word leaves it, with the completion next: the word is the readback value and
the in-flight command, and no STATUS read comes before it (R28, R32; logs 8, 15). -/
def State.loadCommand (s : State) (v : Word) : State :=
  { s with cmd := v, inflight := some ⟨v, 0⟩ }

end Sys2Proof.Machine
end

