-- ==== Sys2Proof/Machine/Step.lean ====
section
/-! DEFINITION. One step of the block: the next event at its port (R27, R48). -/

namespace Sys2Proof.Machine

/-- One event: an access performed, a command completed, or nothing while the host asks for nothing (R27, R48, R49). -/
def step (s : State) : Host.Outcome State Fault Refusal :=
  match s.inflight with
  | some c => stepInFlight c s
  | none => stepIdle s

/-- `s` with the command word `w` of `nbits` bits where the next step takes its command from: in flight. -/
def State.withFetchWord (s : State) (nbits w : Nat) : State := s.loadCommand (fetchWord nbits w)

end Sys2Proof.Machine
end

