-- ==== Sys2Proof/Machine/Orchestrator.lean ====
section
/-! DEFINITION. The orchestration sequence: the reference composition DIGEST64 (R140, R141), the host's access sequence that
computes it on the block (R142), and the wrapper contracts outside the hardware that the spec states in full (R146). -/

namespace Sys2Proof.Machine

/-- Byte `j` of a byte sequence; bytes beyond its end are the zero padding (R140). -/
def byteAt (x : List Byte) (j : Nat) : Byte := x.getD j 0#8

/-- Word `w` of a byte sequence packed little-endian, as BUF holds it (R41, R52). -/
def packWord (x : List Byte) (w : Nat) : Word :=
  wordOfBytes (byteAt x (8 * w)) (byteAt x (8 * w + 1)) (byteAt x (8 * w + 2)) (byteAt x (8 * w + 3))
    (byteAt x (8 * w + 4)) (byteAt x (8 * w + 5)) (byteAt x (8 * w + 6)) (byteAt x (8 * w + 7))

/-- `numBlocks = n div 128` (R140). -/
def numBlocks (x : List Byte) : Nat := x.length / 128

/-- `tailLen = n mod 128` (R140). -/
def tailLen (x : List Byte) : Nat := x.length % 128

/-- `kT = ceil(tailLen / 16)` (R140). -/
def tailLanes (x : List Byte) : Nat := (tailLen x + 15) / 16

/-- Block `j`, bytes 128j .. 128j+127 (R140). -/
def blockOf (x : List Byte) (j : Nat) : List Byte := (x.drop (128 * j)).take 128

/-- The padded tail: the last `tailLen` bytes, then zeros up to 16·kT bytes (R140). -/
def paddedTail (x : List Byte) : List Byte :=
  x.drop (128 * numBlocks x) ++ List.replicate (16 * tailLanes x - tailLen x) 0#8

/-- `absorb(x, k)` of R141: ABSORB_F with BUF holding the bytes of `x`. -/
def absorbBytes (c : ConstStore) (x : List Byte) (k : Nat) : Wide := absorbF c.magicAt (packWord x) k

/-- The combine steps of blocks `j`, `j`+1, …, `j`+`n`−1, in order (R141). -/
def combineBlocks (c : ConstStore) (x : List Byte) (j : Nat) : Nat → Wide → Wide
  | 0, hash => hash
  | n + 1, hash =>
    combineBlocks c x (j + 1) n (combineF hash c.roundConst (absorbBytes c (blockOf x j) 8))

/-- `DIGEST64(buf)` (R141). -/
def digest64 (c : ConstStore) (x : List Byte) : Word :=
  let final := finalF c.finalConst0 c.finalConst1
  if numBlocks x = 0 then
    final (add128 (absorbBytes c (paddedTail x) (tailLanes x)) c.roundConst) (tailLen x)
  else
    let h := add128 (absorbBytes c (blockOf x 0) 8) c.roundConst
    let h := combineBlocks c x 1 (numBlocks x - 1) h
    let h := if tailLen x = 0 then h
      else combineF h c.roundConst (absorbBytes c (paddedTail x) (tailLanes x))
    final h (tailLen x)

/-- `HWR 0x000 + 8·w, word w of x` for the words below `n` (R142). -/
def writeBlock (x : List Byte) (n : Nat) : List Access :=
  (List.range n).map fun w => .write (bufOffset w) (packWord x w)

/-- `CMD <syntax>` (R70). -/
def issueInstr (i : Instr) : Access := .write cmdOffset (encodeCmd i)

/-- Write `k` lanes of `x` to BUF and absorb them into `rd` (R142). -/
def absorbAccesses (rd : WReg) (x : List Byte) (k : Nat) : List Access :=
  writeBlock x (2 * k) ++ [issueInstr (.absorb rd (BitVec.ofNat 8 k))]

/-- Absorb `k` lanes of `x` into W1 and combine them into the accumulator W0 (R142). -/
def combineAccesses (x : List Byte) (k : Nat) : List Access :=
  absorbAccesses 1 x k ++ [issueInstr (.combine 0 (.w 0) .kr (.w 1))]

/-- The loop over blocks `j`, …, `j`+`n`−1 (R142). -/
def blockAccesses (x : List Byte) (j : Nat) : Nat → List Access
  | 0 => []
  | n + 1 => combineAccesses (blockOf x j) 8 ++ blockAccesses x (j + 1) n

/-- The host's access sequence for one digest: accumulator in W0, each absorbed block in W1, digest in W2.lo, and the read of
STATUS that the host owes before it trusts the digest (R142). Both reads wait for FINALIZE: the first is held back until
it completes (R48), and the second comes after the first. -/
def digestAccesses (x : List Byte) : List Access :=
  (if numBlocks x = 0 then absorbAccesses 0 (paddedTail x) (tailLanes x) else absorbAccesses 0 (blockOf x 0) 8)
  ++ [issueInstr (.add128 0 (.w 0) .kr)]
  ++ blockAccesses x 1 (numBlocks x - 1)
  ++ (if numBlocks x ≠ 0 ∧ tailLen x ≠ 0 then combineAccesses (paddedTail x) (tailLanes x) else [])
  ++ [issueInstr (.finalize 2 (.w 0) (BitVec.ofNat 8 (tailLen x))), .read (loOffset 2), .read statusOffset]

/-- The digest a host takes from what the two last reads of `digestAccesses` returned, newest first: none where STATUS.ERR
is 1, for then some command was dropped (R142, R153). -/
def acceptedDigest : List Response → Option Word
  | status :: digest :: _ => if status.data.getLsbD 1 then none else some digest.data
  | _ => none

/-- `be32(s)`, the big-endian bytes of a 32-bit seed (R146). -/
def be32 (x : BitVec 32) : List Byte :=
  [x.extractLsb' 24 8, x.extractLsb' 16 8, x.extractLsb' 8 8, x.extractLsb' 0 8]

/-- `be64(s)`, the big-endian bytes of a 64-bit seed or of an IEEE-754 double (R146). -/
def be64 (x : Word) : List Byte := be32 (x.extractLsb' 32 32) ++ be32 (x.extractLsb' 0 32)

/-- The default seed 0x61247FBF (R146 a). -/
def defaultSeed : BitVec 32 := 0x61247FBF#32

/-- `seeded64(b, s32)` (R146 a). -/
def seeded64 (c : ConstStore) (x : List Byte) (seed : BitVec 32) : Word := digest64 c (be32 seed ++ x)

/-- `seeded64(b, s64)` (R146 a). -/
def seeded64Wide (c : ConstStore) (x : List Byte) (seed : Word) : Word := digest64 c (be64 seed ++ x)

/-- `fold32` (R146 b). -/
def fold32 (x : Word) : BitVec 32 := x.extractLsb' 0 32 ^^^ x.extractLsb' 32 32

/-- `seeded32(b, s)` with a 32-bit seed (R146 b). -/
def seeded32 (c : ConstStore) (x : List Byte) (seed : BitVec 32) : BitVec 32 := fold32 (seeded64 c x seed)

/-- `seeded32(b, s)` with a 64-bit seed (R146 a, b). -/
def seeded32Wide (c : ConstStore) (x : List Byte) (seed : Word) : BitVec 32 := fold32 (seeded64Wide c x seed)

/-- The 24-byte location payload: latitude, longitude and altitude as big-endian doubles, given by their bits (R146 c). -/
def locationPayload (latitude longitude altitude : Word) : List Byte :=
  be64 latitude ++ be64 longitude ++ be64 altitude

/-- The 64-bit hash of a location payload with a 32-bit seed, `defaultSeed` or another (R146 c). How an auth ticket gives
a seed, and which width of the result is used, the spec leaves open: the seed is an argument (log 14). -/
def locationHash (c : ConstStore) (seed : BitVec 32) (latitude longitude altitude : Word) : Word :=
  seeded64 c (locationPayload latitude longitude altitude) seed

/-- The 64-bit hash of a location payload with a 64-bit seed (R146 c; log 14). -/
def locationHashWide (c : ConstStore) (seed : Word) (latitude longitude altitude : Word) : Word :=
  seeded64Wide c (locationPayload latitude longitude altitude) seed

/-- The hash of a request buffer salted with the 64-bit seed of an auth ticket (R146 d). How the ticket gives the seed the
spec leaves open: it is an argument (log 14). -/
def requestHash (c : ConstStore) (ticketSeed : Word) (request : List Byte) : Word := seeded64Wide c request ticketSeed

/-- The fixed-value function's constant, -8408506833887075802 as a 64-bit word (R146 e). -/
def fixedValue : Word := 0x8B4EFB95B2B76226#64

end Sys2Proof.Machine
end

