-- ==== Sys2Proof/Safety.lean ====
section
/-! DEFINITION. What counts as a good state and a safe run (R151, R153, R160, R173), in the terms claims use. -/

namespace Sys2Proof.Machine

/-- The invariant of every state a run from reset reaches: BUF in canonical form and written by whole words (R41, R46);
ERRCODE is 0 exactly when ERR is 0 (R151, R154); a command is in flight only with ERR = 0, and it is the one the CMD
readback shows (R28, R48, R153); a value the port returned carries a model fault only where one is recorded (R160). -/
structure State.Inv (s : State) : Prop where
  bufWf : Memory.wf s.buf
  bufWhole : Memory.wholeWords s.buf
  errCode : s.err = false ↔ s.errCode = .noError
  inflightErr : s.inflight.isSome → s.err = false
  inflightCmd : ∀ c, s.inflight = some c → c.word = s.cmd
  faultRecorded : ∀ r ∈ s.responses, r.fault.isSome → s.modelFault.isSome

/-- Every access has been performed and no command is in flight. -/
def State.Quiescent (s : State) : Prop := s.pending = [] ∧ s.inflight = none

/-- The end state of a run the host may trust: nothing is left to do, no error is recorded (R153, R173) and no model fault
has happened (R160). -/
def State.Trusted (s : State) : Prop := s.Quiescent ∧ s.err = false ∧ s.modelFault = none

/-- Some run of the block from `s` ends in `t`. -/
def Reaches (s t : State) : Prop := ∃ n, Host.Core.run Sys2Proof.core n s = .next t

/-- A run from `s` that ends in a state the host may trust. -/
def SafeRun (s t : State) : Prop := Reaches s t ∧ t.Trusted

end Sys2Proof.Machine
end

