-- ==== Sys2Proof/Certificates/Slice0/Obligations.lean ====
section
/-! DEFINITION. The statements for the provers. The arithmetic of the commands is stated over plain natural numbers, so
that it says the rules again in other terms than the meanings do. -/

namespace Sys2Proof.Reference

open Sys2Proof.Machine

/-! ## Numbers (R10 to R13) -/

/-- Limb `i` of 32 bits of a 128-bit number (R110). -/
def limb (x i : Nat) : Nat := x / 2 ^ (32 * i) % 2 ^ 32

/-- The number of one ABSORB lane: the product of its two words, each with its constant added mod 2^64 (R100). -/
def lane (magic block : Nat → Word) (i : Nat) : Nat :=
  (((block (2 * i)).toNat + (magic (2 * i)).toNat) % 2 ^ 64)
    * (((block (2 * i + 1)).toNat + (magic (2 * i + 1)).toNat) % 2 ^ 64)

/-- The sum of the first `k` lanes as an exact number. -/
def laneSum (magic block : Nat → Word) : Nat → Nat
  | 0 => 0
  | k + 1 => laneSum magic block k + lane magic block k

/-- COMBINE as numbers: the limb split, the diagonal sums, the carry propagation and the reassembly (R110 to R113). -/
def combine (h m a : Nat) : Nat :=
  let c0 := limb h 0 * limb m 0
  let c1 := (limb h 0 * limb m 1 + limb h 1 * limb m 0) % 2 ^ 64
  let c2 := (limb h 0 * limb m 2 + limb h 1 * limb m 1 + limb h 2 * limb m 0) % 2 ^ 64
  let c3 := (limb h 0 * limb m 3 + limb h 1 * limb m 2 + limb h 2 * limb m 1 + limb h 3 * limb m 0) % 2 ^ 64
  let c4 := (limb h 1 * limb m 3 + limb h 2 * limb m 2 + limb h 3 * limb m 1) % 2 ^ 64
  let c5 := (limb h 2 * limb m 3 + limb h 3 * limb m 2) % 2 ^ 64
  let c6 := limb h 3 * limb m 3
  let r2 := (c2 + 2 * c6 + a / 2 ^ 64) % 2 ^ 64
  let r3 := (c3 + r2 / 2 ^ 32) % 2 ^ 64
  let r0 := (c0 + 2 * c4 + limb a 0 + r3 / 2 ^ 31) % 2 ^ 64
  let r1 := (c1 + 2 * c5 + limb a 1 + r0 / 2 ^ 32) % 2 ^ 64
  (r3 % 2 ^ 31 * 2 ^ 32 + r2 % 2 ^ 32 + r1 / 2 ^ 32) % 2 ^ 64 * 2 ^ 64 + (r1 % 2 ^ 32 * 2 ^ 32 + r0 % 2 ^ 32)

/-- Steps 1 to 3 of the finalizer as numbers (R120). -/
def finalMix (h t : Nat) : Nat :=
  let v := (h + 8 * t) % 2 ^ 128
  let w := if 2 ^ 127 - 1 ≤ v then (v + 1) % 2 ^ 128 else v
  w % 2 ^ 127

/-- Step 4, lane X (R121). -/
def finalX (v : Nat) : Nat :=
  let x := (v / 2 ^ 64 + v % 2 ^ 64 / 2 ^ 32) % 2 ^ 64
  ((x + x / 2 ^ 32 + 1) % 2 ^ 64 / 2 ^ 32 + v / 2 ^ 64) % 2 ^ 64

/-- Step 4, lane Y (R121). -/
def finalY (v : Nat) : Nat := (finalX v * 2 ^ 32 + v % 2 ^ 64) % 2 ^ 64

/-- Steps 5 and 6 (R122). -/
def finalAdd (x c : Nat) : Nat :=
  let s := (x + c) % 2 ^ 64
  if s < x then (s + 257) % 2 ^ 64 else s

/-- Step 8 (R123). -/
def finalReduce (p : Nat) : Nat := (p / 2 ^ 64 * 257 + p % 2 ^ 64) % 2 ^ 128

/-- Step 9 (R124). -/
def finalCanonical (p : Nat) : Nat :=
  let r := if p / 2 ^ 64 ≠ 0 then (p % 2 ^ 64 + 257) % 2 ^ 64 else p % 2 ^ 64
  if 2 ^ 64 - 258 < r then (r + 257) % 2 ^ 64 else r

/-- FINALIZE as numbers (R120 to R124). -/
def final (c0 c1 h t : Nat) : Nat :=
  let v := finalMix h t
  finalCanonical (finalReduce (finalReduce (finalAdd (finalX v) c0 * finalAdd (finalY v) c1)))

/-! ## Command words (R61 to R66) -/

/-- The selector number of a source (R22). -/
def selector : Src → Nat
  | .w i => i.val
  | .kr => 8

/-- `imm<<24 | rc<<20 | rb<<16 | ra<<12 | rd<<8 | op` of disjoint fields (R61). -/
def assembled (op rd ra rb rc imm : Nat) : Nat :=
  imm * 2 ^ 24 + rc * 2 ^ 20 + rb * 2 ^ 16 + ra * 2 ^ 12 + rd * 2 ^ 8 + op

/-- Bits lo+3 : lo of a CMD value. -/
def nibble (v : Word) (lo : Nat) : Nat := v.toNat / 2 ^ lo % 16
/-- Bits 7 : 0 of a CMD value. -/
def op (v : Word) : Nat := v.toNat % 256
/-- Bits 31 : 24 of a CMD value. -/
def imm (v : Word) : Nat := v.toNat / 2 ^ 24 % 256

/-- Check 2 of R66: CMD[63:32] and the fields R63 lists for the opcode are 0. -/
def ReservedZero (v : Word) : Prop :=
  v.toNat / 2 ^ 32 = 0 ∧
  (op v = 1 ∨ op v = 2 ∨ op v = 4 → nibble v 20 = 0 ∧ imm v = 0) ∧
  (op v = 3 → nibble v 8 = 0 ∧ nibble v 20 = 0 ∧ imm v = 0) ∧
  (op v = 5 → nibble v 12 = 0 ∧ nibble v 16 = 0 ∧ nibble v 20 = 0) ∧
  (op v = 6 → imm v = 0) ∧
  (op v = 7 → nibble v 16 = 0 ∧ nibble v 20 = 0)

/-- Check 3 of R66: destinations in 0..7 and sources in 0..8, in the fields R62 says are selectors (R64). -/
def SelectorsLegal (v : Word) : Prop :=
  (op v ≠ 3 → nibble v 8 < 8) ∧
  (op v ≠ 5 → nibble v 12 < 9) ∧
  (op v ≠ 5 ∧ op v ≠ 7 → nibble v 16 < 9) ∧
  (op v = 6 → nibble v 20 < 9)

/-- Check 4 of R66: the immediate is in range (R65). -/
def ImmediateLegal (v : Word) : Prop :=
  (op v = 5 → imm v ≤ 8) ∧ (op v = 7 → imm v < 128)

/-! ## STATUS fields -/

/-- The number of an error code (R152). -/
def errorNumber : ErrCode → Nat
  | .noError => 0
  | .illegalOpcode => 1
  | .reservedField => 2
  | .badReg => 3
  | .badImm => 4
  | .badAddr => 5
  | .reservedCtrl => 6

/-- The number of a comparison result (R30). -/
def orderNumber : CmpResult → Nat
  | .eq => 0
  | .gt => 1
  | .lt => 2

/-! ## What a command writes and reads -/

/-- The destination register of a command that has one (R62). -/
def destination : Instr → Option WReg
  | .add128 rd _ _ => some rd
  | .and128 rd _ _ => some rd
  | .cmp128 _ _ => none
  | .mul64 rd _ _ => some rd
  | .absorb rd _ => some rd
  | .combine rd _ _ _ => some rd
  | .finalize rd _ _ => some rd

/-- Both limbs of a source are marked written; KR always is (R22, R23). -/
def BothWritten (s : State) (x : Src) : Prop :=
  ∀ i, x = .w i → (s.marks i).hi = true ∧ (s.marks i).lo = true

/-- The low limb of a source is marked written; KR always is (R89). -/
def LowWritten (s : State) (x : Src) : Prop := ∀ i, x = .w i → (s.marks i).lo = true

/-- Every limb and BUF word the command reads is marked written (R23, R89, R101). -/
def ReadsWritten (s : State) : Instr → Prop
  | .add128 _ ra rb => BothWritten s ra ∧ BothWritten s rb
  | .and128 _ ra rb => BothWritten s ra ∧ BothWritten s rb
  | .cmp128 ra rb => BothWritten s ra ∧ BothWritten s rb
  | .mul64 _ ra rb => LowWritten s ra ∧ LowWritten s rb
  | .absorb _ imm => ∀ j < 2 * imm.toNat, ∃ v, readWord s.buf j = some v
  | .combine _ ra rb rc => BothWritten s ra ∧ BothWritten s rb ∧ BothWritten s rc
  | .finalize _ ra _ => BothWritten s ra

/-! ## The port -/

/-- The word that the port holds at a readable offset, where everything read is marked written (R42, R46). -/
def PortHolds (s : State) (off : Offset) (v : Word) : Prop :=
  (∃ k < 16, off.toNat = 8 * k ∧ readWord s.buf k = some v) ∨
  (∃ i : WReg, off.toNat = 0x080 + 16 * i.val ∧ (s.marks i).lo = true ∧ v = (s.wide i).lo) ∨
  (∃ i : WReg, off.toNat = 0x088 + 16 * i.val ∧ (s.marks i).hi = true ∧ v = (s.wide i).hi) ∨
  (off.toNat = 0x100 ∧ v = s.cmd) ∨
  (off.toNat = 0x108 ∧ v = s.statusWord) ∨
  (off.toNat = 0x110 ∧ v = 0#64)

/-- The offset names a BUF word or W limb whose written mark is clear (R23). -/
def PortUnwritten (s : State) (off : Offset) : Prop :=
  (∃ k < 16, off.toNat = 8 * k ∧ readWord s.buf k = none) ∨
  (∃ i : WReg, off.toNat = 0x080 + 16 * i.val ∧ (s.marks i).lo = false) ∨
  (∃ i : WReg, off.toNat = 0x088 + 16 * i.val ∧ (s.marks i).hi = false)

/-- Misaligned or unmapped (R43, R44). -/
def BadOffset (off : Offset) : Prop := off.toNat % 8 ≠ 0 ∨ 0x118 ≤ off.toNat

/-- `t` is `s` but for the error record: the first error's code is kept (R151). -/
def RecordsOnly (code : ErrCode) (s t : State) : Prop :=
  t = { s with err := true, errCode := if s.err then s.errCode else code }

/-- The host's next access is a STATUS read, whether or not it takes the value. -/
def StatusReadNext (s : State) : Prop :=
  s.pending.head? = some (.read 0x108#9) ∨ s.pending.head? = some (.discard 0x108#9)

/-- The host's next access, with no command in flight, is a CTRL write of `v` (R29, R48). -/
def CtrlWriteNext (s : State) (v : Word) : Prop :=
  s.inflight = none ∧ s.pending.head? = some (.write 0x110#9 v)

end Sys2Proof.Reference

open Sys2Proof Sys2Proof.Machine Sys2Proof.Reference

/-! ## Encoding -/

/-- One word of each family, written out from the field table (R61, R62), decodes to the command it stands for. -/
def Obligations.SpecWordsDecode : Prop :=
  decodeCmd 0x00032101#64 = .ok (.add128 1 (.w 2) (.w 3)) ∧
  decodeCmd 0x00088702#64 = .ok (.and128 7 .kr .kr) ∧
  decodeCmd 0x00002003#64 = .ok (.cmp128 (.w 2) (.w 0)) ∧
  decodeCmd 0x00010204#64 = .ok (.mul64 2 (.w 0) (.w 1)) ∧
  decodeCmd 0x08000005#64 = .ok (.absorb 0 8#8) ∧
  decodeCmd 0x00180006#64 = .ok (.combine 0 (.w 0) .kr (.w 1)) ∧
  decodeCmd 0x7F000207#64 = .ok (.finalize 2 (.w 0) 127#8)

/-- R61, R62: every command's word is its fields at their places, the unused ones 0. -/
def Obligations.EncodingFollowsFieldTable : Prop :=
  (∀ rd ra rb, (encode (.add128 rd ra rb)).toNat = assembled 1 rd.val (selector ra) (selector rb) 0 0) ∧
  (∀ rd ra rb, (encode (.and128 rd ra rb)).toNat = assembled 2 rd.val (selector ra) (selector rb) 0 0) ∧
  (∀ ra rb, (encode (.cmp128 ra rb)).toNat = assembled 3 0 (selector ra) (selector rb) 0 0) ∧
  (∀ rd ra rb, (encode (.mul64 rd ra rb)).toNat = assembled 4 rd.val (selector ra) (selector rb) 0 0) ∧
  (∀ rd k, (encode (.absorb rd k)).toNat = assembled 5 rd.val 0 0 0 k.toNat) ∧
  (∀ rd ra rb rc, (encode (.combine rd ra rb rc)).toNat
    = assembled 6 rd.val (selector ra) (selector rb) (selector rc) 0) ∧
  (∀ rd ra k, (encode (.finalize rd ra k)).toNat = assembled 7 rd.val (selector ra) 0 0 k.toNat)

/-- Every well-formed command, with every operand at every value, decodes from its own word. -/
def Obligations.DecodeOfEncodeIsIdentity : Prop :=
  ∀ i : Instr, i.wellFormed = true → decodeCmd (encodeCmd i) = .ok i

/-- A CMD value that decodes is the word of what it decodes to, which is well formed: no two words mean the same. -/
def Obligations.EncodeOfDecodeIsIdentity : Prop :=
  ∀ (v : Word) (i : Instr), decodeCmd v = .ok i → encodeCmd i = v ∧ i.wellFormed = true

/-- R66: the four checks in their order, the first failure deciding; a command that passes them all executes, and a
rejected one only has its error recorded. -/
def Obligations.CommandChecksInOrder : Prop :=
  ∀ (v : Word) (s : State),
    (op v = 0 ∨ 7 < op v → ∃ t, complete v s = .next t ∧ RecordsOnly .illegalOpcode s t) ∧
    (1 ≤ op v ∧ op v ≤ 7 → ¬ ReservedZero v →
      ∃ t, complete v s = .next t ∧ RecordsOnly .reservedField s t) ∧
    (1 ≤ op v ∧ op v ≤ 7 → ReservedZero v → ¬ SelectorsLegal v →
      ∃ t, complete v s = .next t ∧ RecordsOnly .badReg s t) ∧
    (1 ≤ op v ∧ op v ≤ 7 → ReservedZero v → SelectorsLegal v → ¬ ImmediateLegal v →
      ∃ t, complete v s = .next t ∧ RecordsOnly .badImm s t) ∧
    (1 ≤ op v ∧ op v ≤ 7 → ReservedZero v → SelectorsLegal v → ImmediateLegal v →
      ∃ i, decodeCmd v = .ok i ∧ complete v s = exec i s)

/-! ## Steps -/

/-- A step with a command in flight, where no STATUS read comes first, runs the command the CMD value decodes to, from the
state with nothing in flight; a CMD value the decoder rejects has its error recorded and nothing else. That it is in
flight until then is the model's reading (log 7). -/
def Obligations.StepRunsDecodedCommand : Prop :=
  ∀ (s : State) (c : InFlight), s.inflight = some c →
    (c.polls = 0 ∨ ¬ StatusReadNext s) →
    (∀ i, decodeCmd c.word = .ok i → step s = exec i { s with inflight := none }) ∧
    (∀ code, decodeCmd c.word = .error code →
      ∃ t, step s = .next t ∧ RecordsOnly code { s with inflight := none } t)

/-- The step after `withFetchWord` runs the instruction the host's decoder view reads from the same word. That
`withFetchWord` stands for the host's CMD write is the model's choice (logs 8, 15). -/
def Obligations.FetchWordRunsNext : Prop :=
  ∀ (s : State) (nbits w : Nat) (i : Instr), decodeTableWord nbits w = some i →
    step (s.withFetchWord nbits w)
      = exec i { s with cmd := BitVec.ofNat 64 (w % 2 ^ nbits), inflight := none }

/-- No step stops: whatever the state, the machine goes on (R80, R150). That a model fault is recorded and not a stop is
the model's choice (log 2). -/
def Obligations.EveryStepAnswersNext : Prop :=
  ∀ s : State, ∃ t, step s = .next t

/-- R48: while a command is in flight, every access but a STATUS read waits; the step completes the command, and the
accesses and what the port has returned are as before. -/
def Obligations.AccessesWaitForCompletion : Prop :=
  ∀ (s : State) (c : InFlight), s.inflight = some c → ¬ StatusReadNext s →
    ∃ t, step s = .next t ∧ t.inflight = none ∧ t.pending = s.pending ∧ t.responses = s.responses

/-- R49: a STATUS read performed in flight returns BUSY = 1 and every other field as before the command, and changes
nothing but the host's side of the port and the number of such reads still to come, which is the model's form of R49's
draw (log 6); where the host throws the value away (log 11), nothing is returned. -/
def Obligations.StatusReadInFlightShowsBusy : Prop :=
  ∀ (s : State) (c : InFlight) (rest : List Access), s.inflight = some c → 0 < c.polls →
    (s.pending = .read 0x108#9 :: rest →
      ∃ d : Word, d.getLsbD 0 = true
        ∧ (∀ n, 0 < n → d.getLsbD n = ({ s with inflight := none }.statusWord).getLsbD n)
        ∧ step s = .next { s with
            pending := rest, inflight := some ⟨c.word, c.polls - 1⟩, responses := ⟨0x108#9, d, none⟩ :: s.responses }) ∧
    (s.pending = .discard 0x108#9 :: rest →
      step s = .next { s with pending := rest, inflight := some ⟨c.word, c.polls - 1⟩ })

/-- R49, R176: a command in flight completes; at most `polls` STATUS reads come before it, the model's form of R49's draw
(log 6). -/
def Obligations.CommandInFlightCompletes : Prop :=
  ∀ (s : State) (c : InFlight), s.inflight = some c →
    ∃ n t, n ≤ c.polls + 1 ∧ Host.Core.run Sys2Proof.core n s = .next t ∧ t.inflight = none

/-- R27, R170: with no command in flight and no access, the block does nothing. That such a step is one of the machine's
steps is the model's choice (log 8). -/
def Obligations.IdleBlockStaysAsItIs : Prop :=
  ∀ s : State, s.inflight = none → s.pending = [] → step s = .next s

/-! ## Results of the commands -/

/-- R83, with R81's carry: ADD128 is addition modulo 2^128; the low sum wraps exactly when it is below the first operand's
low limb, and comparing with the second gives the same. -/
def Obligations.Add128AddsModulo2Pow128 : Prop :=
  ∀ (rd : WReg) (ra rb : Src) (s : State), ∃ t, exec (.add128 rd ra rb) s = .next t ∧
    (t.wide rd).value = ((s.src ra).value + (s.src rb).value) % 2 ^ 128 ∧
    (2 ^ 64 ≤ (s.src ra).lo.toNat + (s.src rb).lo.toNat ↔ (t.wide rd).lo < (s.src ra).lo) ∧
    ((t.wide rd).lo < (s.src ra).lo ↔ (t.wide rd).lo < (s.src rb).lo)

/-- R84, R85: AND128 is the bitwise AND of the two 128-bit numbers. -/
def Obligations.And128IsBitwiseAnd : Prop :=
  ∀ (rd : WReg) (ra rb : Src) (s : State), ∃ t, exec (.and128 rd ra rb) s = .next t ∧
    (t.wide rd).value = (s.src ra).value &&& (s.src rb).value

/-- R86, R87: CMP128 sets STATUS.CMP to the unsigned order of the two 128-bit numbers and changes nothing else of the block;
the model's own fault record apart (log 2). -/
def Obligations.Cmp128ComparesUnsigned : Prop :=
  ∀ (ra rb : Src) (s : State), ∃ t, exec (.cmp128 ra rb) s = .next t ∧
    t.cmp = (if (s.src ra).value = (s.src rb).value then CmpResult.eq
      else if (s.src rb).value < (s.src ra).value then CmpResult.gt else CmpResult.lt) ∧
    t = { s with cmp := t.cmp, modelFault := t.modelFault }

/-- R88, R89: MUL64 is the exact product of the two low limbs. -/
def Obligations.Mul64IsExactProduct : Prop :=
  ∀ (rd : WReg) (ra rb : Src) (s : State), ∃ t, exec (.mul64 rd ra rb) s = .next t ∧
    (t.wide rd).value = (s.src ra).lo.toNat * (s.src rb).lo.toNat

/-- R100, R101: ABSORB is the sum of its lanes modulo 2^126. Words not written since reset are free values (log 3). -/
def Obligations.AbsorbSumsLanesModulo2Pow126 : Prop :=
  ∀ (rd : WReg) (imm : BitVec 8) (s : State), imm.toNat ≤ 8 →
    ∃ t, exec (.absorb rd imm) s = .next t ∧
      (t.wide rd).value = Reference.laneSum s.consts.magicAt s.bufWord imm.toNat % 2 ^ 126

/-- R110 to R114: COMBINE computes the limb formula on the numbers of its sources. -/
def Obligations.CombineFollowsLimbFormula : Prop :=
  ∀ (rd : WReg) (ra rb rc : Src) (s : State), ∃ t, exec (.combine rd ra rb rc) s = .next t ∧
    (t.wide rd).value = Reference.combine (s.src ra).value (s.src rb).value (s.src rc).value

/-- R114: with a zero accumulator, COMBINE passes every addend below 2^126 through, whatever the multiplier. -/
def Obligations.CombineOfZeroPassesAddend : Prop :=
  ∀ (rd : WReg) (ra rb rc : Src) (s : State), s.src ra = Wide.zero → (s.src rc).value < 2 ^ 126 →
    ∃ t, exec (.combine rd ra rb rc) s = .next t ∧ t.wide rd = s.src rc

/-- R120 to R125: FINALIZE writes the digest of its source to the low limb and 0 to the high limb. -/
def Obligations.FinalizeFollowsTwoStageReduction : Prop :=
  ∀ (rd : WReg) (ra : Src) (imm : BitVec 8) (s : State), imm.toNat < 128 →
    ∃ t, exec (.finalize rd ra imm) s = .next t ∧ (t.wide rd).hi = 0#64 ∧
      (t.wide rd).lo.toNat
        = Reference.final s.consts.finalConst0.toNat s.consts.finalConst1.toNat (s.src ra).value imm.toNat

/-- R125: where the second adjustment of step 9 fires, the digest is below the modulus 2^64 − 257. -/
def Obligations.SecondAdjustmentIsCanonical : Prop :=
  ∀ (h : Wide),
    2 ^ 64 - 258 < (if h.value / 2 ^ 64 ≠ 0 then (h.value % 2 ^ 64 + 257) % 2 ^ 64 else h.value % 2 ^ 64) →
    (Machine.finalCanonical h).toNat < 2 ^ 64 - 257

/-- R103: every ABSORB result is below 2^126, its bits 127 and 126 clear; no such bound holds of ADD128 or COMBINE. -/
def Obligations.AbsorbResultBelow2Pow126 : Prop :=
  (∀ (rd : WReg) (imm : BitVec 8) (s : State), imm.toNat ≤ 8 →
    ∃ t, exec (.absorb rd imm) s = .next t ∧ (t.wide rd).value < 2 ^ 126 ∧
      (t.wide rd).hi.getLsbD 63 = false ∧ (t.wide rd).hi.getLsbD 62 = false) ∧
  (∃ a b, 2 ^ 126 ≤ (add128 a b).value) ∧ (∃ h m a, 2 ^ 126 ≤ (combineF h m a).value)

/-- R101: ABSORB reads only BUF[0..2k−1]: states that agree on those words and on the constants give the same result. -/
def Obligations.AbsorbReadsOnlyItsLanes : Prop :=
  ∀ (rd : WReg) (imm : BitVec 8) (s s' : State), imm.toNat ≤ 8 → s.consts = s'.consts →
    (∀ j < 2 * imm.toNat, s.bufWord j = s'.bufWord j) →
    ∃ t t', exec (.absorb rd imm) s = .next t ∧ exec (.absorb rd imm) s' = .next t' ∧ t.wide rd = t'.wide rd

/-- R101, R102: zero lanes give zero, whatever BUF and the constants hold. -/
def Obligations.AbsorbOfNoLanesIsZero : Prop :=
  ∀ (rd : WReg) (s : State), ∃ t, exec (.absorb rd 0#8) s = .next t ∧ t.wide rd = Wide.zero ∧
    t.modelFault = s.modelFault

/-- R89: MUL64 does not read the high limbs: states that agree on the low limbs, and on their marks, give the same result and
the same fault record. -/
def Obligations.Mul64IgnoresHighLimbs : Prop :=
  ∀ (rd : WReg) (ra rb : Src) (s s' : State),
    s.consts = s'.consts → s.modelFault = s'.modelFault →
    (∀ i, (s.wide i).lo = (s'.wide i).lo) → (∀ i, (s.marks i).lo = (s'.marks i).lo) →
    ∃ t t', exec (.mul64 rd ra rb) s = .next t ∧ exec (.mul64 rd ra rb) s' = .next t' ∧
      t.wide rd = t'.wide rd ∧ t.modelFault = t'.modelFault

/-- R69: MOV128 copies, LDKR loads ROUND_CONST, ADDKR adds it, MIXKR combines with it. -/
def Obligations.PseudoInstructionsAreExact : Prop :=
  ∀ (rd : WReg) (ra rc : Src) (s : State),
    (∃ t, exec (.and128 rd ra ra) s = .next t ∧ t.wide rd = s.src ra) ∧
    (∃ t, exec (.and128 rd .kr .kr) s = .next t ∧ t.wide rd = s.consts.roundConst
      ∧ t.modelFault = s.modelFault) ∧
    (∃ t, exec (.add128 rd ra .kr) s = .next t ∧
      (t.wide rd).value = ((s.src ra).value + s.consts.roundConst.value) % 2 ^ 128) ∧
    (∃ t, exec (.combine rd ra .kr rc) s = .next t ∧
      (t.wide rd).value = Reference.combine (s.src ra).value s.consts.roundConst.value (s.src rc).value)

/-! ## Frames -/

/-- What ADD128, AND128, MUL64, ABSORB, COMBINE and FINALIZE leave alone (R80, R31, R155): every other W register and mark,
every byte of BUF, STATUS, the CMD readback, the constant store, and the host's side of the port. The destination's marks
are set (R23); the model's fault record may gain a fault (log 2). -/
def Obligations.RegisterCommandsFrame : Prop :=
  ∀ (i : Instr) (rd : WReg) (s : State), i.wellFormed = true → destination i = some rd →
    ∃ t, exec i s = .next t ∧
      (∀ j, j ≠ rd → t.wide j = s.wide j ∧ t.marks j = s.marks j) ∧
      t.marks rd = ⟨true, true⟩ ∧
      (∀ j, t.bufByte j = s.bufByte j) ∧
      t.err = s.err ∧ t.errCode = s.errCode ∧ t.cmp = s.cmp ∧ t.cmd = s.cmd ∧ t.consts = s.consts ∧
      t.inflight = s.inflight ∧ t.pending = s.pending ∧ t.responses = s.responses ∧ t.draws = s.draws ∧
      (t.modelFault = s.modelFault ∨ t.modelFault = some .unwrittenRead)

/-- R65, R101, R125: an immediate out of range only has BAD_IMM recorded. The decoder stops such a command first (log 13). -/
def Obligations.IllFormedImmediateRecordsBadImm : Prop :=
  ∀ (i : Instr) (s : State), i.wellFormed = false → ∃ t, exec i s = .next t ∧ RecordsOnly .badImm s t

/-- R23, R160: a command whose sources are all written records no model fault, and one that reads an unwritten limb or word
leaves one recorded. That the machine goes on is the model's choice (log 2). -/
def Obligations.UnwrittenSourceIsRecorded : Prop :=
  ∀ (i : Instr) (s : State), i.wellFormed = true →
    ∃ t, exec i s = .next t ∧
      (ReadsWritten s i → t.modelFault = s.modelFault) ∧
      (¬ ReadsWritten s i → t.modelFault = s.modelFault.or (some .unwrittenRead))

/-! ## Port accesses -/

/-- R42, R46, R47: a read of a mapped, written location returns what it holds and has no other effect. -/
def Obligations.PortReadReturnsContents : Prop :=
  ∀ (s : State) (off : Offset) (rest : List Access) (v : Word),
    s.inflight = none → s.pending = .read off :: rest → PortHolds s off v →
    step s = .next { s with pending := rest, responses := ⟨off, v, none⟩ :: s.responses }

/-- R23, R160: a host read of an unwritten limb or word is the model fault UNWRITTEN_READ, and STATUS does not show it. That
the machine goes on is the model's choice (log 2). -/
def Obligations.UnwrittenPortReadIsRecorded : Prop :=
  ∀ (s : State) (off : Offset) (rest : List Access),
    s.inflight = none → s.pending = .read off :: rest → PortUnwritten s off →
    ∃ d, step s = .next { s with
      pending := rest
      responses := ⟨off, d, some .unwrittenRead⟩ :: s.responses
      modelFault := s.modelFault.or (some .unwrittenRead) }

/-- R43, R44, R45, R151: a misaligned or unmapped access, and a STATUS write, has no effect but BAD_ADDR, the first error's
code kept; an erroneous read whose value the host takes returns 0 and is R160's fault ERR_VALUE_READ. That the fault is
recorded where the value is handed over, and the machine goes on, is the model's reading (log 11). -/
def Obligations.BadAccessRecordsBadAddr : Prop :=
  ∀ (s : State) (off : Offset) (rest : List Access), s.inflight = none →
    (BadOffset off → s.pending = .read off :: rest →
      step s = .next { s with
        pending := rest, err := true, errCode := if s.err then s.errCode else .badAddr
        responses := ⟨off, 0#64, some .errValueRead⟩ :: s.responses
        modelFault := s.modelFault.or (some .errValueRead) }) ∧
    (∀ v, BadOffset off ∨ off = 0x108#9 → s.pending = .write off v :: rest →
      step s = .next { s with
        pending := rest, err := true, errCode := if s.err then s.errCode else .badAddr })

/-- R23, R43, R44, R47, R160: a read whose value the host throws away returns nothing; it has no effect at a written
location, is UNWRITTEN_READ at an unwritten one, and only records BAD_ADDR at a misaligned or unmapped one, since no 0 is
used. That the host says which values it throws away is the model's choice (log 11). -/
def Obligations.DiscardedReadReturnsNothing : Prop :=
  ∀ (s : State) (off : Offset) (rest : List Access), s.inflight = none → s.pending = .discard off :: rest →
    ((∃ v, PortHolds s off v) → step s = .next { s with pending := rest }) ∧
    (PortUnwritten s off →
      step s = .next { s with pending := rest, modelFault := s.modelFault.or (some .unwrittenRead) }) ∧
    (BadOffset off → step s = .next { s with
      pending := rest, err := true, errCode := if s.err then s.errCode else .badAddr })

/-- R41, R46: a write of BUF[k] replaces its eight bytes, little-endian, and nothing else. -/
def Obligations.BufWriteReplacesOneWord : Prop :=
  ∀ (s : State) (k : Nat) (v : Word) (rest : List Access), k < 16 → s.inflight = none →
    s.pending = .write (BitVec.ofNat 9 (8 * k)) v :: rest →
    ∃ t, step s = .next t ∧
      (∀ n < 8, t.bufByte (8 * k + n) = some (v.extractLsb' (8 * n) 8)) ∧
      (∀ j, ¬ (8 * k ≤ j ∧ j < 8 * k + 8) → t.bufByte j = s.bufByte j) ∧
      readWord t.buf k = some v ∧
      t = { s with pending := rest, buf := t.buf }

/-- R46: a write of one W limb replaces it, sets its mark, and leaves the other limb, every other register and the rest of
the state alone. -/
def Obligations.LimbWriteLeavesOtherLimb : Prop :=
  ∀ (s : State) (i : WReg) (v : Word) (rest : List Access), s.inflight = none →
    (s.pending = .write (BitVec.ofNat 9 (0x080 + 16 * i.val)) v :: rest →
      ∃ t, step s = .next t ∧ t.wide i = ⟨(s.wide i).hi, v⟩ ∧ t.marks i = ⟨(s.marks i).hi, true⟩ ∧
        (∀ j, j ≠ i → t.wide j = s.wide j ∧ t.marks j = s.marks j) ∧
        t = { s with pending := rest, w := t.w, wMarks := t.wMarks }) ∧
    (s.pending = .write (BitVec.ofNat 9 (0x088 + 16 * i.val)) v :: rest →
      ∃ t, step s = .next t ∧ t.wide i = ⟨v, (s.wide i).lo⟩ ∧ t.marks i = ⟨true, (s.marks i).lo⟩ ∧
        (∀ j, j ≠ i → t.wide j = s.wide j ∧ t.marks j = s.marks j) ∧
        t = { s with pending := rest, w := t.w, wMarks := t.wMarks })

/-- R28, R32, R153: a CMD write always stores its readback value; while ERR = 1 it does nothing else, and otherwise the
command is in flight. That a malformed command is in flight too, until its error is recorded, is the model's reading
(log 7). The number of STATUS reads that will see it is free (log 6). -/
def Obligations.CmdWriteIssuesOrDrops : Prop :=
  ∀ (s : State) (v : Word) (rest : List Access), s.inflight = none → s.pending = .write 0x100#9 v :: rest →
    (s.err = true → step s = .next { s with pending := rest, cmd := v }) ∧
    (s.err = false → ∃ polls draws, step s = .next { s with
      pending := rest, cmd := v, inflight := some ⟨v, polls⟩, draws := draws })

/-- R29, R154, R171: what a CTRL write does, by its value. The values SOFT_RESET leaves in W are free (log 4), so nothing is
said of them; the host's side of the port and the model's fault record stay (log 17). -/
def Obligations.CtrlWriteActions : Prop :=
  ∀ (s : State) (v : Word) (rest : List Access), s.inflight = none → s.pending = .write 0x110#9 v :: rest →
    ∃ t, step s = .next t ∧
      (4 ≤ v.toNat → RecordsOnly .reservedCtrl { s with pending := rest } t) ∧
      (v = 0#64 → t = { s with pending := rest }) ∧
      (v = 2#64 → t = { s with pending := rest, err := false, errCode := .noError }) ∧
      (v = 1#64 ∨ v = 3#64 →
        (∀ i, t.marks i = ⟨false, false⟩) ∧ (∀ j, t.bufByte j = none) ∧ t.err = false ∧ t.errCode = .noError ∧
        t.cmp = .eq ∧ t.cmd = 0#64 ∧ t.inflight = none ∧ t.consts = s.consts ∧
        t.pending = rest ∧ t.responses = s.responses ∧ t.modelFault = s.modelFault)

/-- R26, R30, R152: the STATUS word is its four fields at their places and 0 elsewhere. -/
def Obligations.StatusWordLayout : Prop :=
  ∀ s : State, s.statusWord.toNat =
    (if s.inflight.isSome then 1 else 0) + (if s.err then 2 else 0) +
    16 * errorNumber s.errCode + 256 * orderNumber s.cmp

/-! ## Reset and whole-machine rules -/

/-- R170: what reset leaves, where the spec gives a value; a cleared BUF mark is bytes without a value (log 10). (The W limbs are the model's choice, log 1, and are not stated.) -/
def Obligations.ResetLeavesStatusClear : Prop :=
  (∀ i, State.reset.marks i = ⟨false, false⟩) ∧ (∀ j, State.reset.bufByte j = none) ∧
  (∀ k, State.reset.bufMarked k = false) ∧ State.reset.statusWord = 0#64 ∧ State.reset.cmd = 0#64 ∧
  State.reset.inflight = none ∧ State.reset.consts = Config.consts

/-- The invariant holds at reset. -/
def Obligations.ResetMeetsStateInvariant : Prop := State.reset.Inv

/-- Every step keeps the invariant: BUF canonical and written by whole words, ERRCODE 0 exactly when ERR is 0, a command in
flight only without an error and equal to the CMD readback; a returned value carries a model fault only where one is
recorded. BUF's form and the record of faults are the model's choice (logs 2, 10, 11). -/
def Obligations.EveryStepKeepsStateInvariant : Prop :=
  ∀ s t : State, s.Inv → step s = .next t → t.Inv

/-- R24: no command and no host access writes the constant store. -/
def Obligations.ConstantStoreIsNeverWritten : Prop :=
  ∀ s t : State, step s = .next t → t.consts = s.consts

/-- R30, R31: STATUS.CMP changes only where a CMP128 command completes, or by SOFT_RESET. -/
def Obligations.OnlyCmp128AndResetWriteCmp : Prop :=
  ∀ s t : State, step s = .next t → t.cmp ≠ s.cmp →
    (∃ c ra rb, s.inflight = some c ∧ decodeCmd c.word = .ok (.cmp128 ra rb)) ∨
    (∃ v, CtrlWriteNext s v ∧ (v = 1#64 ∨ v = 3#64))

/-- R25: a byte of BUF changes only by the host: by a write of the BUF word that holds it, or by SOFT_RESET. -/
def Obligations.OnlyHostWritesBuf : Prop :=
  ∀ (s t : State) (j : Nat), step s = .next t → t.bufByte j ≠ s.bufByte j →
    (∃ k v, s.inflight = none ∧ s.pending.head? = some (.write (BitVec.ofNat 9 (8 * k)) v) ∧ k < 16 ∧
      8 * k ≤ j ∧ j < 8 * k + 8) ∨
    (∃ v, CtrlWriteNext s v ∧ (v = 1#64 ∨ v = 3#64))

/-- R26, R151, R154: a recorded error stays, with its code, until a CTRL write clears it. -/
def Obligations.ErrorIsStickyUntilCleared : Prop :=
  ∀ s t : State, s.err = true → step s = .next t →
    (t.err = true ∧ t.errCode = s.errCode) ∨
    (t.err = false ∧ ∃ v, CtrlWriteNext s v ∧ v ≠ 0#64 ∧ v.toNat < 4)

/-- R153, R155: from a state that meets the invariant and has ERR = 1, no command runs: a step changes W only by the host's
own write of a limb, or by SOFT_RESET. -/
def Obligations.NoCommandRunsWhileError : Prop :=
  ∀ s t : State, s.Inv → s.err = true → step s = .next t →
    t.inflight = none ∧
    (t.w = s.w ∨
      (∃ (i : WReg) (v : Word), s.pending.head? = some (.write (BitVec.ofNat 9 (0x080 + 16 * i.val)) v) ∨
        s.pending.head? = some (.write (BitVec.ofNat 9 (0x088 + 16 * i.val)) v)) ∨
      (∃ v, CtrlWriteNext s v ∧ (v = 1#64 ∨ v = 3#64)))

/-- R160: a recorded model fault is never taken back. That it is recorded, and that SOFT_RESET leaves it, is the model's
choice (logs 2, 17). -/
def Obligations.ModelFaultIsNeverTakenBack : Prop :=
  ∀ (n : Nat) (s t : State) (f : Fault), s.modelFault = some f →
    Host.Core.run Sys2Proof.core n s = .next t → t.modelFault = some f

/-- R43, R44, R160: after an erroneous read whose value the host takes, no end state of the run is one to trust, whatever the
host does, clearing the error included. The record of the fault is the model's choice (logs 2, 11). -/
def Obligations.ErroneousReadIsNeverTrusted : Prop :=
  ∀ (s t u : State) (off : Offset), s.inflight = none → s.pending.head? = some (.read off) → BadOffset off →
    step s = .next t → Reaches t u → ¬ u.Trusted

/-! ## The orchestration sequence -/

/-- R141, R142: for every byte sequence, the host's access sequence leaves DIGEST64 in W2.lo and 0 in W2.hi, returns the
digest and then a STATUS without an error, so that the host accepts the digest, and adds no model fault, from every state
without a command in flight and without an error. The queue of accesses and the list of responses are the model's form of
the host's side of the port (logs 8, 9). -/
def Obligations.HostSequenceComputesDigest64 : Prop :=
  ∀ (x : List Byte) (s : State), s.inflight = none → s.err = false → s.pending = digestAccesses x →
    ∃ t, Reaches s t ∧ t.Quiescent ∧ t.wide 2 = ⟨0#64, digest64 s.consts x⟩ ∧
      t.responses = ⟨0x108#9, t.statusWord, none⟩ :: ⟨0x0A0#9, digest64 s.consts x, none⟩ :: s.responses ∧
      t.statusWord.getLsbD 1 = false ∧ acceptedDigest t.responses = some (digest64 s.consts x) ∧
      t.err = false ∧ t.modelFault = s.modelFault

/-- R142, R153: from every state without a command in flight but with an error recorded, the same sequence has its commands
dropped: W is as before, the STATUS read shows ERR = 1 with the error's code, and the host accepts no digest (logs 8, 9). -/
def Obligations.HostSequenceAfterErrorIsNotAccepted : Prop :=
  ∀ (x : List Byte) (s : State), s.inflight = none → s.err = true → s.pending = digestAccesses x →
    ∃ t, Reaches s t ∧ t.Quiescent ∧ t.w = s.w ∧ t.err = true ∧ t.errCode = s.errCode ∧
      (∃ d f, t.responses = ⟨0x108#9, s.statusWord, none⟩ :: ⟨0x0A0#9, d, f⟩ :: s.responses) ∧
      s.statusWord.getLsbD 1 = true ∧ acceptedDigest t.responses = none
end

