-- ==== Sys2Proof/Laws/Arith.lean ====
section
/-! SUPPORT. The wide-integer functions as numbers: one lemma per function (R81 to R88), and the masks (R12). -/

namespace Sys2Proof.Machine

theorem Wide.value_lt (a : Wide) : a.value < 2 ^ 128 := by
  have := a.hi.isLt
  have := a.lo.isLt
  unfold Wide.value
  omega

theorem Wide.value_hi (a : Wide) : a.value / 2 ^ 64 = a.hi.toNat := by
  have := a.lo.isLt
  unfold Wide.value
  omega

theorem Wide.value_lo (a : Wide) : a.value % 2 ^ 64 = a.lo.toNat := by
  have := a.lo.isLt
  unfold Wide.value
  omega

/-- A wide value is determined by its number (R10). -/
theorem Wide.eq_of_value_eq {a b : Wide} (h : a.value = b.value) : a = b := by
  obtain ⟨ah, al⟩ := a
  obtain ⟨bh, bl⟩ := b
  have h1 := Wide.value_hi ⟨ah, al⟩
  have h2 := Wide.value_lo ⟨ah, al⟩
  rw [h] at h1 h2
  rw [Wide.value_hi] at h1
  rw [Wide.value_lo] at h2
  congr
  · exact (BitVec.eq_of_toNat_eq h1).symm
  · exact (BitVec.eq_of_toNat_eq h2).symm

@[simp] theorem Wide.value_ofLow (x : Word) : (Wide.ofLow x).value = x.toNat := by
  simp [Wide.value, Wide.ofLow]

@[simp] theorem Wide.value_zero : Wide.zero.value = 0 := by decide

/-- ADD128 is addition modulo 2^128 (R83). -/
theorem add128_value (a b : Wide) : (add128 a b).value = (a.value + b.value) % 2 ^ 128 := by
  have h1 := a.hi.isLt
  have h2 := a.lo.isLt
  have h3 := b.hi.isLt
  have h4 := b.lo.isLt
  simp only [add128, Wide.value, BitVec.lt_def, BitVec.toNat_add]
  split <;> simp <;> omega

/-- The product of two limbs is exact (R88). -/
theorem mul64x64_value (a b : Word) : (mul64x64 a b).value = a.toNat * b.toNat := by
  have h1 := a.isLt
  have h2 := b.isLt
  have h : a.toNat * b.toNat < 2 ^ 128 := by
    calc a.toNat * b.toNat < 2 ^ 64 * 2 ^ 64 := Nat.mul_lt_mul'' h1 h2
      _ = 2 ^ 128 := by norm_num
  simp only [mul64x64, Wide.value, BitVec.extractLsb'_toNat, BitVec.toNat_mul, BitVec.toNat_setWidth,
    Nat.shiftRight_eq_div_pow]
  rw [Nat.mod_eq_of_lt (a := a.toNat) (by omega), Nat.mod_eq_of_lt (a := b.toNat) (by omega),
    Nat.mod_eq_of_lt h]
  omega

/-- CMP128 is the unsigned order of the numbers (R86). -/
theorem cmp128_value (a b : Wide) :
    cmp128 a b = if a.value = b.value then .eq else if b.value < a.value then .gt else .lt := by
  have h2 := a.lo.isLt
  have h4 := b.lo.isLt
  have va : a.value = a.hi.toNat * 2 ^ 64 + a.lo.toNat := rfl
  have vb : b.value = b.hi.toNat * 2 ^ 64 + b.lo.toNat := rfl
  have eh : a.hi = b.hi ↔ a.hi.toNat = b.hi.toNat := BitVec.toNat_inj.symm
  have el : a.lo = b.lo ↔ a.lo.toNat = b.lo.toNat := BitVec.toNat_inj.symm
  unfold cmp128
  by_cases hh : a.hi = b.hi
  · rw [if_neg (not_not.2 hh)]
    rw [eh] at hh
    by_cases hl : a.lo = b.lo
    · rw [if_neg (not_not.2 hl)]
      rw [el] at hl
      rw [if_pos (by omega)]
    · rw [if_pos hl]
      rw [el] at hl
      have ne : a.value ≠ b.value := by omega
      have lt : b.lo < a.lo ↔ b.value < a.value := by rw [BitVec.lt_def]; omega
      rw [if_neg ne]
      exact if_congr lt rfl rfl
  · rw [if_pos hh]
    rw [eh] at hh
    have ne : a.value ≠ b.value := by omega
    have lt : b.hi < a.hi ↔ b.value < a.value := by rw [BitVec.lt_def]; omega
    rw [if_neg ne]
    exact if_congr lt rfl rfl

/-- Keeping the low `n` bits of the high limb keeps the number modulo 2^(64+n). -/
theorem and128_mask (a : Wide) (n : Nat) (m : Word) (hm : m.toNat = 2 ^ n - 1) :
    (and128 a ⟨m, 0xFFFFFFFFFFFFFFFF#64⟩).value = a.value % 2 ^ (64 + n) := by
  have h1 := a.hi.isLt
  have h2 := a.lo.isLt
  have hlo : (a.lo &&& 0xFFFFFFFFFFFFFFFF#64).toNat = a.lo.toNat := by
    have : (0xFFFFFFFFFFFFFFFF#64).toNat = 2 ^ 64 - 1 := by decide
    rw [BitVec.toNat_and, this, Nat.and_two_pow_sub_one_eq_mod, Nat.mod_eq_of_lt h2]
  simp only [and128, Wide.value, hlo]
  rw [BitVec.toNat_and, hm, Nat.and_two_pow_sub_one_eq_mod, Nat.pow_add, Nat.mod_mul,
    show (a.hi.toNat * 2 ^ 64 + a.lo.toNat) % 2 ^ 64 = a.lo.toNat by omega,
    show (a.hi.toNat * 2 ^ 64 + a.lo.toNat) / 2 ^ 64 = a.hi.toNat by omega]
  omega

/-- AND with MASK126 is the number modulo 2^126 (R100). -/
theorem and128_mask126 (a : Wide) : (and128 a mask126).value = a.value % 2 ^ 126 :=
  and128_mask a 62 0x3FFFFFFFFFFFFFFF#64 (by decide)

/-- AND with MASK127 is the number modulo 2^127 (R120). -/
theorem and128_mask127 (a : Wide) : (and128 a mask127).value = a.value % 2 ^ 127 :=
  and128_mask a 63 0x7FFFFFFFFFFFFFFF#64 (by decide)

theorem toNat_lo32 (x : Word) : (lo32 x).toNat = x.toNat % 2 ^ 32 := by
  have := Nat.mod_lt x.toNat (y := 2 ^ 32) (by norm_num)
  simp only [lo32, BitVec.toNat_setWidth, BitVec.extractLsb'_toNat, Nat.shiftRight_zero]
  omega

theorem toNat_hi32 (x : Word) : (hi32 x).toNat = x.toNat / 2 ^ 32 := by
  have := x.isLt
  simp only [hi32, BitVec.toNat_setWidth, BitVec.extractLsb'_toNat, Nat.shiftRight_eq_div_pow]
  omega

end Sys2Proof.Machine
end

