-- ==== Sys2Proof/Laws/Encoding.lean ====
section
/-! SUPPORT. What the decoder's parts read from a word and what the encoder's parts write to one (R61 to R64). -/

namespace Sys2Proof

/-! ## Selectors and opcodes -/

theorem srcOf_srcSelector (x : Src) : srcOf (srcSelector x) = some x := by
  cases x with
  | kr => rfl
  | w i => revert i; decide

theorem destOf_destSelector (d : WReg) : destOf (destSelector d) = some d := by revert d; decide

theorem srcOf_eq_some {b : BitVec 4} {x : Src} (h : srcOf b = some x) : b = srcSelector x := by
  cases x with
  | kr => revert h; revert b; decide
  | w i => revert h; revert b i; decide

theorem destOf_eq_some {b : BitVec 4} {d : WReg} (h : destOf b = some d) : b = destSelector d := by
  revert h; revert b d; decide

theorem srcOf_eq_none {b : BitVec 4} : srcOf b = none ↔ ¬ b.toNat < 9 := by revert b; decide

theorem destOf_eq_none {b : BitVec 4} : destOf b = none ↔ ¬ b.toNat < 8 := by revert b; decide

theorem opcodeOf_opByte (o : Opcode) : opcodeOf (opByte o) = some o := by cases o <;> rfl

theorem opcodeOf_eq_some {b : BitVec 8} {o : Opcode} (h : opcodeOf b = some o) : b = opByte o := by
  revert h; revert o b; decide

theorem opcodeOf_eq_none {b : BitVec 8} : opcodeOf b = none ↔ b.toNat = 0 ∨ 7 < b.toNat := by revert b; decide

/-! ## Fields as numbers -/

theorem toNat_opField (v : Word) : (opField v).toNat = v.toNat % 256 := by simp [opField]
theorem toNat_rdField (v : Word) : (rdField v).toNat = v.toNat / 2 ^ 8 % 16 := by
  simp [rdField, Nat.shiftRight_eq_div_pow]
theorem toNat_raField (v : Word) : (raField v).toNat = v.toNat / 2 ^ 12 % 16 := by
  simp [raField, Nat.shiftRight_eq_div_pow]
theorem toNat_rbField (v : Word) : (rbField v).toNat = v.toNat / 2 ^ 16 % 16 := by
  simp [rbField, Nat.shiftRight_eq_div_pow]
theorem toNat_rcField (v : Word) : (rcField v).toNat = v.toNat / 2 ^ 20 % 16 := by
  simp [rcField, Nat.shiftRight_eq_div_pow]
theorem toNat_immField (v : Word) : (immField v).toNat = v.toNat / 2 ^ 24 % 256 := by
  simp [immField, Nat.shiftRight_eq_div_pow]

/-- The number of an assembled word: its fields do not overlap (R61). -/
theorem toNat_assemble (o : Opcode) (rd ra rb rc : BitVec 4) (imm : BitVec 8) :
    (assemble o rd ra rb rc imm).toNat = imm.toNat * 2 ^ 24 + rc.toNat * 2 ^ 20 + rb.toNat * 2 ^ 16
      + ra.toNat * 2 ^ 12 + rd.toNat * 2 ^ 8 + (opByte o).toNat := by
  have disjoint (x y n : Nat) (h : y < 2 ^ n) : x <<< n ||| y = x * 2 ^ n + y := by
    rw [← Nat.shiftLeft_add_eq_or_of_lt h, Nat.shiftLeft_eq]
  simp only [assemble, BitVec.toNat_append]
  rw [disjoint _ _ _ rc.isLt, disjoint _ _ _ rb.isLt, disjoint _ _ _ ra.isLt, disjoint _ _ _ rd.isLt,
    disjoint _ _ _ (opByte o).isLt]
  omega

/-- Every field of an assembled CMD value reads back, and CMD[63:32] is 0. -/
theorem fields_assemble (o : Opcode) (rd ra rb rc : BitVec 4) (imm : BitVec 8) :
    let v : Word := (assemble o rd ra rb rc imm).setWidth 64
    opField v = opByte o ∧ rdField v = rd ∧ raField v = ra ∧ rbField v = rb ∧ rcField v = rc ∧ immField v = imm ∧
      v.toNat / 2 ^ 32 = 0 := by
  intro v
  have hn : v.toNat = (assemble o rd ra rb rc imm).toNat := by
    have := (assemble o rd ra rb rc imm).isLt
    simp only [v, BitVec.toNat_setWidth]
    omega
  rw [toNat_assemble] at hn
  have := (opByte o).isLt
  refine ⟨?_, ?_, ?_, ?_, ?_, ?_, by omega⟩ <;> apply BitVec.eq_of_toNat_eq
  · rw [toNat_opField]; omega
  · rw [toNat_rdField]; omega
  · rw [toNat_raField]; omega
  · rw [toNat_rbField]; omega
  · rw [toNat_rcField]; omega
  · rw [toNat_immField]; omega

end Sys2Proof
end

