-- ==== Sys2Proof/Laws/Memory.lean ====
section
/-! SUPPORT. The laws of the block buffer: read after write, and that every operation keeps the canonical form (R41, R46). -/

namespace Sys2Proof.Machine

@[simp] theorem readByte_nil (j : Nat) : readByte [] j = none := rfl

/-- A byte reads as it was written, and every other byte as before. -/
@[simp] theorem readByte_writeByte (m : Memory) (j j' : Nat) (v : Byte) :
    readByte (writeByte m j v) j' = if j = j' then some v else readByte m j' := by
  induction m with
  | nil => rfl
  | cons c m ih =>
    obtain ⟨a, b⟩ := c
    simp only [writeByte]
    split
    · simp only [readByte]
    · split
      · next h => subst h; simp only [readByte]; split <;> rfl
      · next h =>
        simp only [readByte, ih]
        by_cases h1 : a = j'
        · subst h1; simp [h]
        · simp [h1]

/-- Reading the bytes of one word after some of its bytes were written. -/
theorem readByte_writeBytes (m : Memory) (k : Nat) (v : Word) (n j : Nat) :
    readByte (writeBytes m k v n) j
      = if 8 * k ≤ j ∧ j < 8 * k + n then some (byteOf v (j - 8 * k)) else readByte m j := by
  induction n with
  | zero => simp only [writeBytes]; rw [if_neg (by omega)]
  | succ n ih =>
    simp only [writeBytes, readByte_writeByte, ih]
    by_cases h : 8 * k + n = j
    · subst h; simp
    · simp only [h, if_false]
      by_cases h2 : 8 * k ≤ j ∧ j < 8 * k + n
      · rw [if_pos h2, if_pos (by omega)]
      · rw [if_neg h2, if_neg (by omega)]

/-- Reading any byte after a word was written (R41, R46). -/
theorem readByte_writeWord (m : Memory) (k : Nat) (v : Word) (j : Nat) :
    readByte (writeWord m k v) j
      = if 8 * k ≤ j ∧ j < 8 * k + 8 then some (byteOf v (j - 8 * k)) else readByte m j :=
  readByte_writeBytes m k v 8 j

/-- The eight bytes of a word, put together again, are the word (R41). -/
theorem wordOfBytes_byteOf (v : Word) :
    wordOfBytes (byteOf v 0) (byteOf v 1) (byteOf v 2) (byteOf v 3) (byteOf v 4) (byteOf v 5) (byteOf v 6)
      (byteOf v 7) = v := by
  apply BitVec.eq_of_getLsbD_eq
  intro i hi
  simp only [wordOfBytes, byteOf, BitVec.getLsbD_append, BitVec.getLsbD_extractLsb']
  rcases (by omega : i < 8 ∨ (8 ≤ i ∧ i < 16) ∨ (16 ≤ i ∧ i < 24) ∨ (24 ≤ i ∧ i < 32) ∨ (32 ≤ i ∧ i < 40)
    ∨ (40 ≤ i ∧ i < 48) ∨ (48 ≤ i ∧ i < 56) ∨ (56 ≤ i ∧ i < 64)) with h | h | h | h | h | h | h | h <;>
  · repeat' split
    all_goals first
      | omega
      | (rw [decide_eq_true (by omega), Bool.true_and]; congr 1; omega)

/-- Byte `n` of a word made of eight bytes is its `n`-th byte (R41). -/
theorem byteOf_wordOfBytes (b0 b1 b2 b3 b4 b5 b6 b7 : Byte) :
    byteOf (wordOfBytes b0 b1 b2 b3 b4 b5 b6 b7) 0 = b0 ∧ byteOf (wordOfBytes b0 b1 b2 b3 b4 b5 b6 b7) 1 = b1 ∧
    byteOf (wordOfBytes b0 b1 b2 b3 b4 b5 b6 b7) 2 = b2 ∧ byteOf (wordOfBytes b0 b1 b2 b3 b4 b5 b6 b7) 3 = b3 ∧
    byteOf (wordOfBytes b0 b1 b2 b3 b4 b5 b6 b7) 4 = b4 ∧ byteOf (wordOfBytes b0 b1 b2 b3 b4 b5 b6 b7) 5 = b5 ∧
    byteOf (wordOfBytes b0 b1 b2 b3 b4 b5 b6 b7) 6 = b6 ∧ byteOf (wordOfBytes b0 b1 b2 b3 b4 b5 b6 b7) 7 = b7 := by
  refine ⟨?_, ?_, ?_, ?_, ?_, ?_, ?_, ?_⟩ <;>
  · apply BitVec.eq_of_getLsbD_eq
    intro i hi
    simp only [wordOfBytes, byteOf, BitVec.getLsbD_append, BitVec.getLsbD_extractLsb', hi, decide_true,
      Bool.true_and]
    repeat' split
    all_goals first
      | omega
      | (congr 1; omega)

/-- A word read back from its own bytes (R46). -/
theorem readWord_writeWord_same (m : Memory) (k : Nat) (v : Word) : readWord (writeWord m k v) k = some v := by
  have h : ∀ n < 8, readByte (writeWord m k v) (8 * k + n) = some (byteOf v n) := by
    intro n hn
    rw [readByte_writeWord, if_pos (by omega)]
    congr 2; omega
  have h0 := h 0 (by omega)
  simp only [Nat.add_zero] at h0
  simp only [readWord, h0, h 1 (by omega), h 2 (by omega), h 3 (by omega), h 4 (by omega), h 5 (by omega),
    h 6 (by omega), h 7 (by omega)]
  simp [wordOfBytes_byteOf]

/-- A word depends on its own eight bytes only. -/
theorem readWord_congr {m m' : Memory} {k : Nat} (h : ∀ n < 8, readByte m (8 * k + n) = readByte m' (8 * k + n)) :
    readWord m k = readWord m' k := by
  have h0 := h 0 (by omega)
  simp only [Nat.add_zero] at h0
  simp only [readWord, h0, h 1 (by omega), h 2 (by omega), h 3 (by omega), h 4 (by omega), h 5 (by omega),
    h 6 (by omega), h 7 (by omega)]

/-- Every other word reads as before (R46). -/
theorem readWord_writeWord_other (m : Memory) {k k' : Nat} (v : Word) (h : k ≠ k') :
    readWord (writeWord m k v) k' = readWord m k' := by
  apply readWord_congr
  intro n hn
  rw [readByte_writeWord, if_neg (by omega)]

/-! ## The canonical form -/

theorem mem_writeByte {m : Memory} {j : Nat} {v : Byte} {c : Host.Cell} (h : c ∈ writeByte m j v) :
    c = (j, v) ∨ c ∈ m := by
  induction m with
  | nil => simpa [writeByte] using h
  | cons d m ih =>
    obtain ⟨a, b⟩ := d
    simp only [writeByte] at h
    split at h
    · simpa using h
    · split at h
      · rcases List.mem_cons.1 h with h | h
        · exact .inl h
        · exact .inr (List.mem_cons_of_mem _ h)
      · rcases List.mem_cons.1 h with h | h
        · exact .inr (by simp [h])
        · exact (ih h).imp id (List.mem_cons_of_mem _)

theorem writeByte_wf {m : Memory} (hm : Memory.wf m) {j : Nat} (hj : j < 128) (v : Byte) :
    Memory.wf (writeByte m j v) := by
  refine ⟨?_, ?_⟩
  · have hs := hm.1
    clear hm
    induction m with
    | nil => simp [writeByte]
    | cons c m ih =>
      obtain ⟨a, b⟩ := c
      simp only [writeByte]
      have ⟨h1, h2⟩ := List.pairwise_cons.1 hs
      split
      · next hja =>
        refine List.pairwise_cons.2 ⟨?_, hs⟩
        intro d hd
        rcases List.mem_cons.1 hd with rfl | hd
        · exact hja
        · exact Nat.lt_trans hja (h1 d hd)
      · split
        · next hja =>
          subst hja
          exact List.pairwise_cons.2 ⟨h1, h2⟩
        · next hlt hne =>
          refine List.pairwise_cons.2 ⟨?_, ih h2⟩
          intro d hd
          rcases mem_writeByte hd with rfl | hd
          · show a < j
            omega
          · exact h1 d hd
  · intro c hc
    rcases mem_writeByte hc with rfl | hc
    · exact hj
    · exact hm.2 c hc

theorem writeBytes_wf {m : Memory} (hm : Memory.wf m) {k : Nat} (hk : k < 16) (v : Word) {n : Nat} (hn : n ≤ 8) :
    Memory.wf (writeBytes m k v n) := by
  induction n with
  | zero => exact hm
  | succ n ih => exact writeByte_wf (ih (by omega)) (by omega) _

/-- Writing a BUF word keeps the canonical form. -/
theorem writeWord_wf {m : Memory} (hm : Memory.wf m) {k : Nat} (hk : k < 16) (v : Word) :
    Memory.wf (writeWord m k v) := writeBytes_wf hm hk v (Nat.le_refl 8)

/-- Writing a BUF word keeps BUF written by whole words. -/
theorem writeWord_wholeWords {m : Memory} (hm : Memory.wholeWords m) (k : Nat) (v : Word) :
    Memory.wholeWords (writeWord m k v) := by
  intro k' hk'
  by_cases h : k = k'
  · subst h
    refine .inr fun n hn => ?_
    rw [readByte_writeWord, if_pos (by omega)]
    simp
  · refine (hm k' hk').imp ?_ ?_ <;>
    · intro hb n hn
      rw [readByte_writeWord, if_neg (by omega)]
      exact hb n hn

theorem wf_nil : Memory.wf [] := by simp [Memory.wf]

theorem wholeWords_nil : Memory.wholeWords [] := fun _ _ => .inl fun _ _ => rfl

/-- Equal canonical buffers: two buffers in canonical form that read alike are the same list. -/
theorem eq_of_readByte_eq {m m' : Memory} (hm : Memory.wf m) (hm' : Memory.wf m')
    (h : ∀ j, readByte m j = readByte m' j) : m = m' := by
  have low : ∀ (m : Memory) (j : Nat), (∀ c ∈ m, j < c.1) → readByte m j = none := by
    intro m j hj
    induction m with
    | nil => rfl
    | cons c m ih =>
      obtain ⟨a, b⟩ := c
      have h1 : j < a := hj (a, b) (by simp)
      simp only [readByte]
      rw [if_neg (by omega)]
      exact ih fun c hc => hj c (List.mem_cons_of_mem _ hc)
  have key : ∀ (m m' : Memory), m.Pairwise (fun x y => x.1 < y.1) → m'.Pairwise (fun x y => x.1 < y.1) →
      (∀ j, readByte m j = readByte m' j) → m = m' := by
    intro m
    induction m with
    | nil =>
      intro m' _ _ h
      cases m' with
      | nil => rfl
      | cons c m' => have := h c.1; simp [readByte] at this
    | cons c m ih =>
      intro m' hs hs' h
      obtain ⟨a, b⟩ := c
      have ⟨h1, h2⟩ := List.pairwise_cons.1 hs
      cases m' with
      | nil => have := h a; simp [readByte] at this
      | cons c' m' =>
        obtain ⟨a', b'⟩ := c'
        have ⟨h1', h2'⟩ := List.pairwise_cons.1 hs'
        have haa : a = a' := by
          by_contra hne
          have e1 := h a
          have e2 := h a'
          simp only [readByte, if_true, if_neg hne, if_neg (Ne.symm hne)] at e1 e2
          rcases Nat.lt_or_gt_of_ne hne with hlt | hlt
          · rw [low m' a fun c hc => Nat.lt_trans hlt (h1' c hc)] at e1
            simp at e1
          · rw [low m a' fun c hc => Nat.lt_trans hlt (h1 c hc)] at e2
            simp at e2
        subst haa
        have hb : b = b' := by simpa [readByte] using h a
        subst hb
        rw [ih m' h2 h2' ?_]
        intro j
        by_cases hj : a = j
        · subst hj
          rw [low m a h1, low m' a h1']
        · have := h j
          simpa [readByte, hj] using this
  exact key m m' hm.1 hm'.1 h

end Sys2Proof.Machine
end

