-- ==== Sys2Proof/Laws/PerInstr.lean ====
section
/-! SUPPORT. Facts about every instruction as syntax, one lemma per constructor. -/

namespace Sys2Proof.Laws

/-- The opcode of an instruction (R62). -/
def opcodeFor : Instr → Opcode
  | .add128 _ _ _ => .add128
  | .and128 _ _ _ => .and128
  | .cmp128 _ _ => .cmp128
  | .mul64 _ _ _ => .mul64
  | .absorb _ _ => .absorb
  | .combine _ _ _ _ => .combine
  | .finalize _ _ _ => .finalize

namespace OpcodeReadsBack

/-- Check 1 of R66 finds the instruction's own opcode in the CMD value that issues it, and CMD[63:32] is 0 (R60). -/
def Statement (i : Instr) : Prop :=
  opcodeOf (opField (encodeCmd i)) = some (opcodeFor i) ∧ (encodeCmd i).toNat / 2 ^ 32 = 0

theorem of_assemble (o : Opcode) (rd ra rb rc : BitVec 4) (imm : BitVec 8) :
    let v : Word := (assemble o rd ra rb rc imm).setWidth 64
    opcodeOf (opField v) = some o ∧ v.toNat / 2 ^ 32 = 0 := by
  obtain ⟨ho, _, _, _, _, _, hz⟩ := fields_assemble o rd ra rb rc imm
  exact ⟨by rw [ho, opcodeOf_opByte], hz⟩

theorem add128 (rd : WReg) (ra rb : Src) : Statement (.add128 rd ra rb) := of_assemble ..
theorem and128 (rd : WReg) (ra rb : Src) : Statement (.and128 rd ra rb) := of_assemble ..
theorem cmp128 (ra rb : Src) : Statement (.cmp128 ra rb) := of_assemble ..
theorem mul64 (rd : WReg) (ra rb : Src) : Statement (.mul64 rd ra rb) := of_assemble ..
theorem absorb (rd : WReg) (imm : BitVec 8) : Statement (.absorb rd imm) := of_assemble ..
theorem combine (rd : WReg) (ra rb rc : Src) : Statement (.combine rd ra rb rc) := of_assemble ..
theorem finalize (rd : WReg) (ra : Src) (imm : BitVec 8) : Statement (.finalize rd ra imm) := of_assemble ..

end OpcodeReadsBack

end Sys2Proof.Laws
end

