-- ==== Sys2Proof/Laws/State.lean ====
section
/-! SUPPORT. One lemma per field per update of the state, so that no proof unfolds a record update. -/

namespace Sys2Proof.Machine

variable (s : State)

/-! ### setWide -/

@[simp] theorem setWide_consts (i : WReg) (v : Wide) : (s.setWide i v).consts = s.consts := rfl
@[simp] theorem setWide_buf (i : WReg) (v : Wide) : (s.setWide i v).buf = s.buf := rfl
@[simp] theorem setWide_err (i : WReg) (v : Wide) : (s.setWide i v).err = s.err := rfl
@[simp] theorem setWide_errCode (i : WReg) (v : Wide) : (s.setWide i v).errCode = s.errCode := rfl
@[simp] theorem setWide_cmp (i : WReg) (v : Wide) : (s.setWide i v).cmp = s.cmp := rfl
@[simp] theorem setWide_cmd (i : WReg) (v : Wide) : (s.setWide i v).cmd = s.cmd := rfl
@[simp] theorem setWide_inflight (i : WReg) (v : Wide) : (s.setWide i v).inflight = s.inflight := rfl
@[simp] theorem setWide_pending (i : WReg) (v : Wide) : (s.setWide i v).pending = s.pending := rfl
@[simp] theorem setWide_responses (i : WReg) (v : Wide) : (s.setWide i v).responses = s.responses := rfl
@[simp] theorem setWide_modelFault (i : WReg) (v : Wide) : (s.setWide i v).modelFault = s.modelFault := rfl
@[simp] theorem setWide_draws (i : WReg) (v : Wide) : (s.setWide i v).draws = s.draws := rfl

/-! ### setLo -/

@[simp] theorem setLo_consts (i : WReg) (v : Word) : (s.setLo i v).consts = s.consts := rfl
@[simp] theorem setLo_buf (i : WReg) (v : Word) : (s.setLo i v).buf = s.buf := rfl
@[simp] theorem setLo_err (i : WReg) (v : Word) : (s.setLo i v).err = s.err := rfl
@[simp] theorem setLo_errCode (i : WReg) (v : Word) : (s.setLo i v).errCode = s.errCode := rfl
@[simp] theorem setLo_cmp (i : WReg) (v : Word) : (s.setLo i v).cmp = s.cmp := rfl
@[simp] theorem setLo_cmd (i : WReg) (v : Word) : (s.setLo i v).cmd = s.cmd := rfl
@[simp] theorem setLo_inflight (i : WReg) (v : Word) : (s.setLo i v).inflight = s.inflight := rfl
@[simp] theorem setLo_pending (i : WReg) (v : Word) : (s.setLo i v).pending = s.pending := rfl
@[simp] theorem setLo_responses (i : WReg) (v : Word) : (s.setLo i v).responses = s.responses := rfl
@[simp] theorem setLo_modelFault (i : WReg) (v : Word) : (s.setLo i v).modelFault = s.modelFault := rfl
@[simp] theorem setLo_draws (i : WReg) (v : Word) : (s.setLo i v).draws = s.draws := rfl

/-! ### setHi -/

@[simp] theorem setHi_consts (i : WReg) (v : Word) : (s.setHi i v).consts = s.consts := rfl
@[simp] theorem setHi_buf (i : WReg) (v : Word) : (s.setHi i v).buf = s.buf := rfl
@[simp] theorem setHi_err (i : WReg) (v : Word) : (s.setHi i v).err = s.err := rfl
@[simp] theorem setHi_errCode (i : WReg) (v : Word) : (s.setHi i v).errCode = s.errCode := rfl
@[simp] theorem setHi_cmp (i : WReg) (v : Word) : (s.setHi i v).cmp = s.cmp := rfl
@[simp] theorem setHi_cmd (i : WReg) (v : Word) : (s.setHi i v).cmd = s.cmd := rfl
@[simp] theorem setHi_inflight (i : WReg) (v : Word) : (s.setHi i v).inflight = s.inflight := rfl
@[simp] theorem setHi_pending (i : WReg) (v : Word) : (s.setHi i v).pending = s.pending := rfl
@[simp] theorem setHi_responses (i : WReg) (v : Word) : (s.setHi i v).responses = s.responses := rfl
@[simp] theorem setHi_modelFault (i : WReg) (v : Word) : (s.setHi i v).modelFault = s.modelFault := rfl
@[simp] theorem setHi_draws (i : WReg) (v : Word) : (s.setHi i v).draws = s.draws := rfl

/-! ### setBufWord -/

@[simp] theorem setBufWord_w (k : Nat) (v : Word) : (s.setBufWord k v).w = s.w := rfl
@[simp] theorem setBufWord_wMarks (k : Nat) (v : Word) : (s.setBufWord k v).wMarks = s.wMarks := rfl
@[simp] theorem setBufWord_consts (k : Nat) (v : Word) : (s.setBufWord k v).consts = s.consts := rfl
@[simp] theorem setBufWord_err (k : Nat) (v : Word) : (s.setBufWord k v).err = s.err := rfl
@[simp] theorem setBufWord_errCode (k : Nat) (v : Word) : (s.setBufWord k v).errCode = s.errCode := rfl
@[simp] theorem setBufWord_cmp (k : Nat) (v : Word) : (s.setBufWord k v).cmp = s.cmp := rfl
@[simp] theorem setBufWord_cmd (k : Nat) (v : Word) : (s.setBufWord k v).cmd = s.cmd := rfl
@[simp] theorem setBufWord_inflight (k : Nat) (v : Word) : (s.setBufWord k v).inflight = s.inflight := rfl
@[simp] theorem setBufWord_pending (k : Nat) (v : Word) : (s.setBufWord k v).pending = s.pending := rfl
@[simp] theorem setBufWord_responses (k : Nat) (v : Word) : (s.setBufWord k v).responses = s.responses := rfl
@[simp] theorem setBufWord_modelFault (k : Nat) (v : Word) : (s.setBufWord k v).modelFault = s.modelFault := rfl
@[simp] theorem setBufWord_draws (k : Nat) (v : Word) : (s.setBufWord k v).draws = s.draws := rfl

/-! ### setCmp -/

@[simp] theorem setCmp_w (r : CmpResult) : (s.setCmp r).w = s.w := rfl
@[simp] theorem setCmp_wMarks (r : CmpResult) : (s.setCmp r).wMarks = s.wMarks := rfl
@[simp] theorem setCmp_consts (r : CmpResult) : (s.setCmp r).consts = s.consts := rfl
@[simp] theorem setCmp_buf (r : CmpResult) : (s.setCmp r).buf = s.buf := rfl
@[simp] theorem setCmp_err (r : CmpResult) : (s.setCmp r).err = s.err := rfl
@[simp] theorem setCmp_errCode (r : CmpResult) : (s.setCmp r).errCode = s.errCode := rfl
@[simp] theorem setCmp_cmd (r : CmpResult) : (s.setCmp r).cmd = s.cmd := rfl
@[simp] theorem setCmp_inflight (r : CmpResult) : (s.setCmp r).inflight = s.inflight := rfl
@[simp] theorem setCmp_pending (r : CmpResult) : (s.setCmp r).pending = s.pending := rfl
@[simp] theorem setCmp_responses (r : CmpResult) : (s.setCmp r).responses = s.responses := rfl
@[simp] theorem setCmp_modelFault (r : CmpResult) : (s.setCmp r).modelFault = s.modelFault := rfl
@[simp] theorem setCmp_draws (r : CmpResult) : (s.setCmp r).draws = s.draws := rfl

/-! ### clearErr -/

@[simp] theorem clearErr_w : (s.clearErr).w = s.w := rfl
@[simp] theorem clearErr_wMarks : (s.clearErr).wMarks = s.wMarks := rfl
@[simp] theorem clearErr_consts : (s.clearErr).consts = s.consts := rfl
@[simp] theorem clearErr_buf : (s.clearErr).buf = s.buf := rfl
@[simp] theorem clearErr_cmp : (s.clearErr).cmp = s.cmp := rfl
@[simp] theorem clearErr_cmd : (s.clearErr).cmd = s.cmd := rfl
@[simp] theorem clearErr_inflight : (s.clearErr).inflight = s.inflight := rfl
@[simp] theorem clearErr_pending : (s.clearErr).pending = s.pending := rfl
@[simp] theorem clearErr_responses : (s.clearErr).responses = s.responses := rfl
@[simp] theorem clearErr_modelFault : (s.clearErr).modelFault = s.modelFault := rfl
@[simp] theorem clearErr_draws : (s.clearErr).draws = s.draws := rfl

/-! ### raise -/

@[simp] theorem raise_w (code : ErrCode) : (s.raise code).w = s.w := by unfold State.raise; split <;> rfl
@[simp] theorem raise_wMarks (code : ErrCode) : (s.raise code).wMarks = s.wMarks := by unfold State.raise; split <;> rfl
@[simp] theorem raise_consts (code : ErrCode) : (s.raise code).consts = s.consts := by unfold State.raise; split <;> rfl
@[simp] theorem raise_buf (code : ErrCode) : (s.raise code).buf = s.buf := by unfold State.raise; split <;> rfl
@[simp] theorem raise_cmp (code : ErrCode) : (s.raise code).cmp = s.cmp := by unfold State.raise; split <;> rfl
@[simp] theorem raise_cmd (code : ErrCode) : (s.raise code).cmd = s.cmd := by unfold State.raise; split <;> rfl
@[simp] theorem raise_inflight (code : ErrCode) : (s.raise code).inflight = s.inflight := by unfold State.raise; split <;> rfl
@[simp] theorem raise_pending (code : ErrCode) : (s.raise code).pending = s.pending := by unfold State.raise; split <;> rfl
@[simp] theorem raise_responses (code : ErrCode) : (s.raise code).responses = s.responses := by unfold State.raise; split <;> rfl
@[simp] theorem raise_modelFault (code : ErrCode) : (s.raise code).modelFault = s.modelFault := by unfold State.raise; split <;> rfl
@[simp] theorem raise_draws (code : ErrCode) : (s.raise code).draws = s.draws := by unfold State.raise; split <;> rfl

/-! ### recordFault -/

@[simp] theorem recordFault_w (f : Fault) : (s.recordFault f).w = s.w := by unfold State.recordFault; split <;> rfl
@[simp] theorem recordFault_wMarks (f : Fault) : (s.recordFault f).wMarks = s.wMarks := by unfold State.recordFault; split <;> rfl
@[simp] theorem recordFault_consts (f : Fault) : (s.recordFault f).consts = s.consts := by unfold State.recordFault; split <;> rfl
@[simp] theorem recordFault_buf (f : Fault) : (s.recordFault f).buf = s.buf := by unfold State.recordFault; split <;> rfl
@[simp] theorem recordFault_err (f : Fault) : (s.recordFault f).err = s.err := by unfold State.recordFault; split <;> rfl
@[simp] theorem recordFault_errCode (f : Fault) : (s.recordFault f).errCode = s.errCode := by unfold State.recordFault; split <;> rfl
@[simp] theorem recordFault_cmp (f : Fault) : (s.recordFault f).cmp = s.cmp := by unfold State.recordFault; split <;> rfl
@[simp] theorem recordFault_cmd (f : Fault) : (s.recordFault f).cmd = s.cmd := by unfold State.recordFault; split <;> rfl
@[simp] theorem recordFault_inflight (f : Fault) : (s.recordFault f).inflight = s.inflight := by unfold State.recordFault; split <;> rfl
@[simp] theorem recordFault_pending (f : Fault) : (s.recordFault f).pending = s.pending := by unfold State.recordFault; split <;> rfl
@[simp] theorem recordFault_responses (f : Fault) : (s.recordFault f).responses = s.responses := by unfold State.recordFault; split <;> rfl
@[simp] theorem recordFault_draws (f : Fault) : (s.recordFault f).draws = s.draws := by unfold State.recordFault; split <;> rfl

/-! ### noteRead -/

@[simp] theorem noteRead_w (b : Bool) : (s.noteRead b).w = s.w := by cases b <;> simp [State.noteRead]
@[simp] theorem noteRead_wMarks (b : Bool) : (s.noteRead b).wMarks = s.wMarks := by cases b <;> simp [State.noteRead]
@[simp] theorem noteRead_consts (b : Bool) : (s.noteRead b).consts = s.consts := by cases b <;> simp [State.noteRead]
@[simp] theorem noteRead_buf (b : Bool) : (s.noteRead b).buf = s.buf := by cases b <;> simp [State.noteRead]
@[simp] theorem noteRead_err (b : Bool) : (s.noteRead b).err = s.err := by cases b <;> simp [State.noteRead]
@[simp] theorem noteRead_errCode (b : Bool) : (s.noteRead b).errCode = s.errCode := by cases b <;> simp [State.noteRead]
@[simp] theorem noteRead_cmp (b : Bool) : (s.noteRead b).cmp = s.cmp := by cases b <;> simp [State.noteRead]
@[simp] theorem noteRead_cmd (b : Bool) : (s.noteRead b).cmd = s.cmd := by cases b <;> simp [State.noteRead]
@[simp] theorem noteRead_inflight (b : Bool) : (s.noteRead b).inflight = s.inflight := by cases b <;> simp [State.noteRead]
@[simp] theorem noteRead_pending (b : Bool) : (s.noteRead b).pending = s.pending := by cases b <;> simp [State.noteRead]
@[simp] theorem noteRead_responses (b : Bool) : (s.noteRead b).responses = s.responses := by cases b <;> simp [State.noteRead]
@[simp] theorem noteRead_draws (b : Bool) : (s.noteRead b).draws = s.draws := by cases b <;> simp [State.noteRead]

/-! ### respond -/

@[simp] theorem respond_w (off : Offset) (v : Word) (b : Bool) : (s.respond off v b).w = s.w := by simp [State.respond]
@[simp] theorem respond_wMarks (off : Offset) (v : Word) (b : Bool) : (s.respond off v b).wMarks = s.wMarks := by simp [State.respond]
@[simp] theorem respond_consts (off : Offset) (v : Word) (b : Bool) : (s.respond off v b).consts = s.consts := by simp [State.respond]
@[simp] theorem respond_buf (off : Offset) (v : Word) (b : Bool) : (s.respond off v b).buf = s.buf := by simp [State.respond]
@[simp] theorem respond_err (off : Offset) (v : Word) (b : Bool) : (s.respond off v b).err = s.err := by simp [State.respond]
@[simp] theorem respond_errCode (off : Offset) (v : Word) (b : Bool) : (s.respond off v b).errCode = s.errCode := by simp [State.respond]
@[simp] theorem respond_cmp (off : Offset) (v : Word) (b : Bool) : (s.respond off v b).cmp = s.cmp := by simp [State.respond]
@[simp] theorem respond_cmd (off : Offset) (v : Word) (b : Bool) : (s.respond off v b).cmd = s.cmd := by simp [State.respond]
@[simp] theorem respond_inflight (off : Offset) (v : Word) (b : Bool) : (s.respond off v b).inflight = s.inflight := by simp [State.respond]
@[simp] theorem respond_pending (off : Offset) (v : Word) (b : Bool) : (s.respond off v b).pending = s.pending := by simp [State.respond]
@[simp] theorem respond_draws (off : Offset) (v : Word) (b : Bool) : (s.respond off v b).draws = s.draws := by simp [State.respond]

/-! ### respondBad -/

@[simp] theorem respondBad_w (off : Offset) : (s.respondBad off).w = s.w := by simp [State.respondBad]
@[simp] theorem respondBad_wMarks (off : Offset) : (s.respondBad off).wMarks = s.wMarks := by simp [State.respondBad]
@[simp] theorem respondBad_consts (off : Offset) : (s.respondBad off).consts = s.consts := by simp [State.respondBad]
@[simp] theorem respondBad_buf (off : Offset) : (s.respondBad off).buf = s.buf := by simp [State.respondBad]
@[simp] theorem respondBad_cmp (off : Offset) : (s.respondBad off).cmp = s.cmp := by simp [State.respondBad]
@[simp] theorem respondBad_cmd (off : Offset) : (s.respondBad off).cmd = s.cmd := by simp [State.respondBad]
@[simp] theorem respondBad_inflight (off : Offset) : (s.respondBad off).inflight = s.inflight := by simp [State.respondBad]
@[simp] theorem respondBad_pending (off : Offset) : (s.respondBad off).pending = s.pending := by simp [State.respondBad]
@[simp] theorem respondBad_draws (off : Offset) : (s.respondBad off).draws = s.draws := by simp [State.respondBad]

/-! ### issue -/

@[simp] theorem issue_w (v : Word) : (s.issue v).w = s.w := by unfold State.issue; split <;> rfl
@[simp] theorem issue_wMarks (v : Word) : (s.issue v).wMarks = s.wMarks := by unfold State.issue; split <;> rfl
@[simp] theorem issue_consts (v : Word) : (s.issue v).consts = s.consts := by unfold State.issue; split <;> rfl
@[simp] theorem issue_buf (v : Word) : (s.issue v).buf = s.buf := by unfold State.issue; split <;> rfl
@[simp] theorem issue_err (v : Word) : (s.issue v).err = s.err := by unfold State.issue; split <;> rfl
@[simp] theorem issue_errCode (v : Word) : (s.issue v).errCode = s.errCode := by unfold State.issue; split <;> rfl
@[simp] theorem issue_cmp (v : Word) : (s.issue v).cmp = s.cmp := by unfold State.issue; split <;> rfl
@[simp] theorem issue_pending (v : Word) : (s.issue v).pending = s.pending := by unfold State.issue; split <;> rfl
@[simp] theorem issue_responses (v : Word) : (s.issue v).responses = s.responses := by unfold State.issue; split <;> rfl
@[simp] theorem issue_modelFault (v : Word) : (s.issue v).modelFault = s.modelFault := by unfold State.issue; split <;> rfl

/-! ### loadCommand -/

@[simp] theorem loadCommand_w (v : Word) : (s.loadCommand v).w = s.w := rfl
@[simp] theorem loadCommand_wMarks (v : Word) : (s.loadCommand v).wMarks = s.wMarks := rfl
@[simp] theorem loadCommand_consts (v : Word) : (s.loadCommand v).consts = s.consts := rfl
@[simp] theorem loadCommand_buf (v : Word) : (s.loadCommand v).buf = s.buf := rfl
@[simp] theorem loadCommand_err (v : Word) : (s.loadCommand v).err = s.err := rfl
@[simp] theorem loadCommand_errCode (v : Word) : (s.loadCommand v).errCode = s.errCode := rfl
@[simp] theorem loadCommand_cmp (v : Word) : (s.loadCommand v).cmp = s.cmp := rfl
@[simp] theorem loadCommand_pending (v : Word) : (s.loadCommand v).pending = s.pending := rfl
@[simp] theorem loadCommand_responses (v : Word) : (s.loadCommand v).responses = s.responses := rfl
@[simp] theorem loadCommand_modelFault (v : Word) : (s.loadCommand v).modelFault = s.modelFault := rfl
@[simp] theorem loadCommand_draws (v : Word) : (s.loadCommand v).draws = s.draws := rfl

/-! ### the fields an update does write -/

@[simp] theorem setBufWord_buf (k : Nat) (v : Word) : (s.setBufWord k v).buf = writeWord s.buf k v := rfl
@[simp] theorem setCmp_cmp (r : CmpResult) : (s.setCmp r).cmp = r := rfl
@[simp] theorem clearErr_err : s.clearErr.err = false := rfl
@[simp] theorem clearErr_errCode : s.clearErr.errCode = .noError := rfl
@[simp] theorem raise_err (code : ErrCode) : (s.raise code).err = true := by
  unfold State.raise; split <;> simp_all
@[simp] theorem raise_errCode (code : ErrCode) :
    (s.raise code).errCode = if s.err then s.errCode else code := by
  unfold State.raise; split <;> rfl
@[simp] theorem recordFault_modelFault (f : Fault) :
    (s.recordFault f).modelFault = s.modelFault.or (some f) := by
  unfold State.recordFault; split <;> simp_all
@[simp] theorem noteRead_modelFault (b : Bool) :
    (s.noteRead b).modelFault = if b then s.modelFault else s.modelFault.or (some .unwrittenRead) := by
  cases b <;> simp [State.noteRead]
@[simp] theorem respond_responses (off : Offset) (v : Word) (b : Bool) :
    (s.respond off v b).responses = ⟨off, v, if b then none else some .unwrittenRead⟩ :: s.responses := rfl
@[simp] theorem respond_modelFault (off : Offset) (v : Word) (b : Bool) :
    (s.respond off v b).modelFault = (s.noteRead b).modelFault := rfl
@[simp] theorem respondBad_responses (off : Offset) :
    (s.respondBad off).responses = ⟨off, 0#64, some .errValueRead⟩ :: s.responses := rfl
@[simp] theorem respondBad_modelFault (off : Offset) :
    (s.respondBad off).modelFault = s.modelFault.or (some .errValueRead) := by simp [State.respondBad]
@[simp] theorem respondBad_err (off : Offset) : (s.respondBad off).err = true := by simp [State.respondBad]
@[simp] theorem respondBad_errCode (off : Offset) :
    (s.respondBad off).errCode = if s.err then s.errCode else .badAddr := by simp [State.respondBad]
@[simp] theorem issue_cmd (v : Word) : (s.issue v).cmd = v := by unfold State.issue; split <;> rfl
@[simp] theorem loadCommand_cmd (v : Word) : (s.loadCommand v).cmd = v := rfl
@[simp] theorem loadCommand_inflight (v : Word) : (s.loadCommand v).inflight = some ⟨v, 0⟩ := rfl

/-- Reading what is written changes nothing (R23). -/
@[simp] theorem noteRead_true : s.noteRead true = s := rfl

/-- Recording an error, as one update: ERR is 1 afterwards and the first error's code is kept (R151). -/
theorem raise_eq (code : ErrCode) :
    s.raise code = { s with err := true, errCode := if s.err then s.errCode else code } := by
  unfold State.raise
  split
  · next h => cases s; simp_all
  · rfl

/-! ### softReset -/

@[simp] theorem softReset_consts : s.softReset.consts = s.consts := rfl
@[simp] theorem softReset_buf : s.softReset.buf = [] := rfl
@[simp] theorem softReset_err : s.softReset.err = false := rfl
@[simp] theorem softReset_errCode : s.softReset.errCode = .noError := rfl
@[simp] theorem softReset_cmp : s.softReset.cmp = .eq := rfl
@[simp] theorem softReset_cmd : s.softReset.cmd = 0#64 := rfl
@[simp] theorem softReset_inflight : s.softReset.inflight = none := rfl
@[simp] theorem softReset_pending : s.softReset.pending = s.pending := rfl
@[simp] theorem softReset_responses : s.softReset.responses = s.responses := rfl
@[simp] theorem softReset_modelFault : s.softReset.modelFault = s.modelFault := rfl

/-! ### the STATUS word -/

/-- Bit 0 of STATUS is BUSY (R26). -/
theorem statusWord_busy : s.statusWord.getLsbD 0 = s.inflight.isSome := by
  simp only [State.statusWord, State.busy]
  cases s.inflight.isSome <;> cases s.err <;> cases s.errCode <;> cases s.cmp <;> decide

/-- Bit 1 of STATUS is ERR (R26). -/
theorem statusWord_err : s.statusWord.getLsbD 1 = s.err := by
  simp only [State.statusWord, State.busy]
  cases s.inflight.isSome <;> cases s.err <;> cases s.errCode <;> cases s.cmp <;> decide

variable {s} in
/-- The STATUS word depends on its four fields only (R26). -/
theorem statusWord_congr {t : State} (hbusy : t.inflight.isSome = s.inflight.isSome) (herr : t.err = s.err)
    (hcode : t.errCode = s.errCode) (hcmp : t.cmp = s.cmp) : t.statusWord = s.statusWord := by
  simp only [State.statusWord, State.busy, hbusy, herr, hcode, hcmp]

/-! ### reading W and its marks after an update -/

@[simp] theorem wide_setWide (i j : WReg) (v : Wide) :
    (s.setWide i v).wide j = if i = j then v else s.wide j := by
  simp [State.wide, State.setWide, Vector.getElem_set, Fin.ext_iff]

@[simp] theorem marks_setWide (i j : WReg) (v : Wide) :
    (s.setWide i v).marks j = if i = j then ⟨true, true⟩ else s.marks j := by
  simp [State.marks, State.setWide, Vector.getElem_set, Fin.ext_iff]

@[simp] theorem wide_setLo (i j : WReg) (v : Word) :
    (s.setLo i v).wide j = if i = j then ⟨(s.wide i).hi, v⟩ else s.wide j := by
  simp [State.wide, State.setLo, Vector.getElem_set, Fin.ext_iff]

@[simp] theorem marks_setLo (i j : WReg) (v : Word) :
    (s.setLo i v).marks j = if i = j then ⟨(s.marks i).hi, true⟩ else s.marks j := by
  simp [State.marks, State.setLo, Vector.getElem_set, Fin.ext_iff]

@[simp] theorem wide_setHi (i j : WReg) (v : Word) :
    (s.setHi i v).wide j = if i = j then ⟨v, (s.wide i).lo⟩ else s.wide j := by
  simp [State.wide, State.setHi, Vector.getElem_set, Fin.ext_iff]

@[simp] theorem marks_setHi (i j : WReg) (v : Word) :
    (s.setHi i v).marks j = if i = j then ⟨true, (s.marks i).lo⟩ else s.marks j := by
  simp [State.marks, State.setHi, Vector.getElem_set, Fin.ext_iff]

@[simp] theorem marks_softReset (i : WReg) : s.softReset.marks i = ⟨false, false⟩ := by
  simp [State.marks, State.softReset]

@[simp] theorem wide_noteRead (b : Bool) (j : WReg) : (s.noteRead b).wide j = s.wide j := by
  simp [State.wide]

@[simp] theorem marks_noteRead (b : Bool) (j : WReg) : (s.noteRead b).marks j = s.marks j := by
  simp [State.marks]

/-- Two states are equal when all their fields are. -/
@[ext] theorem State.ext_fields (a b : State) (h1 : a.w = b.w) (h2 : a.wMarks = b.wMarks)
    (h3 : a.consts = b.consts) (h4 : a.buf = b.buf) (h5 : a.err = b.err) (h6 : a.errCode = b.errCode)
    (h7 : a.cmp = b.cmp) (h8 : a.cmd = b.cmd) (h9 : a.inflight = b.inflight) (h10 : a.pending = b.pending)
    (h11 : a.responses = b.responses) (h12 : a.modelFault = b.modelFault) (h13 : a.draws = b.draws) :
    a = b := by
  cases a; cases b; simp_all

end Sys2Proof.Machine
end

