-- ==== Sys2Proof/Laws/Port.lean ====
section
/-! SUPPORT. The address map in both directions (R42 to R44), and what performing one access can do (R47). -/

namespace Sys2Proof.Machine

theorem offset_eq_of_toNat {a b : Offset} (h : a.toNat = b.toNat) : a = b := BitVec.eq_of_toNat_eq h

theorem targetOf_buf {off : Offset} {k : Nat} (hk : k < 16) (h : off.toNat = 8 * k) :
    targetOf off = .buf ⟨k, hk⟩ := by
  simp only [targetOf, h]
  rw [if_neg (by omega), if_pos (by omega)]
  congr 1
  apply Fin.ext
  simp only [Fin.ofNat]
  omega

theorem targetOf_lo {off : Offset} {i : WReg} (h : off.toNat = 0x080 + 16 * i.val) : targetOf off = .lo i := by
  simp only [targetOf, h]
  rw [if_neg (by omega), if_neg (by omega), if_pos (by omega), if_pos (by omega)]
  congr 1
  apply Fin.ext
  simp only [Fin.ofNat]
  omega

theorem targetOf_hi {off : Offset} {i : WReg} (h : off.toNat = 0x088 + 16 * i.val) : targetOf off = .hi i := by
  simp only [targetOf, h]
  rw [if_neg (by omega), if_neg (by omega), if_pos (by omega), if_neg (by omega)]
  congr 1
  apply Fin.ext
  simp only [Fin.ofNat]
  omega

theorem targetOf_cmd : targetOf 0x100#9 = .cmd := by decide
theorem targetOf_status : targetOf 0x108#9 = .status := by decide
theorem targetOf_ctrl : targetOf 0x110#9 = .ctrl := by decide

theorem targetOf_bad {off : Offset} (h : off.toNat % 8 ≠ 0 ∨ 0x118 ≤ off.toNat) : targetOf off = .bad := by
  simp only [targetOf]
  by_cases h8 : off.toNat % 8 ≠ 0
  · rw [if_pos h8]
  · rw [if_neg h8, if_neg (by omega), if_neg (by omega), if_neg (by omega), if_neg (by omega), if_neg (by omega)]

/-- Every offset is of exactly one of the kinds of R42 to R44. -/
theorem targetOf_cases (off : Offset) :
    (∃ (k : Fin 16), off = bufOffset k.val ∧ targetOf off = .buf k) ∨
    (∃ i, off = loOffset i ∧ targetOf off = .lo i) ∨
    (∃ i, off = hiOffset i ∧ targetOf off = .hi i) ∨
    (off = cmdOffset ∧ targetOf off = .cmd) ∨
    (off = statusOffset ∧ targetOf off = .status) ∨
    (off = ctrlOffset ∧ targetOf off = .ctrl) ∨
    ((off.toNat % 8 ≠ 0 ∨ 0x118 ≤ off.toNat) ∧ targetOf off = .bad) := by
  by_cases hbad : off.toNat % 8 ≠ 0 ∨ 0x118 ≤ off.toNat
  · exact .inr (.inr (.inr (.inr (.inr (.inr ⟨hbad, targetOf_bad hbad⟩)))))
  have hlt := off.isLt
  by_cases h1 : off.toNat < 0x080
  · refine .inl ⟨⟨off.toNat / 8, by omega⟩, ?_, targetOf_buf (by omega) (by omega)⟩
    apply offset_eq_of_toNat
    simp [bufOffset]
    omega
  by_cases h2 : off.toNat < 0x100
  · by_cases h3 : off.toNat % 16 = 0
    · refine .inr (.inl ⟨⟨(off.toNat - 0x080) / 16, by omega⟩, ?_, targetOf_lo (by simp; omega)⟩)
      apply offset_eq_of_toNat
      simp [loOffset]
      omega
    · refine .inr (.inr (.inl ⟨⟨(off.toNat - 0x088) / 16, by omega⟩, ?_, targetOf_hi (by simp; omega)⟩))
      apply offset_eq_of_toNat
      simp [hiOffset]
      omega
  have h3 : off.toNat = 0x100 ∨ off.toNat = 0x108 ∨ off.toNat = 0x110 := by omega
  rcases h3 with h | h | h
  · have : off = 0x100#9 := offset_eq_of_toNat h
    subst this; exact .inr (.inr (.inr (.inl ⟨rfl, by decide⟩)))
  · have : off = 0x108#9 := offset_eq_of_toNat h
    subst this; exact .inr (.inr (.inr (.inr (.inl ⟨rfl, by decide⟩))))
  · have : off = 0x110#9 := offset_eq_of_toNat h
    subst this; exact .inr (.inr (.inr (.inr (.inr (.inl ⟨rfl, by decide⟩)))))

/-- What a read can do: give a response, with the recording of a model fault or of BAD_ADDR (R47). -/
theorem readPort_cases (s : State) (off : Offset) :
    (∃ v marked, s.readPort off = s.respond off v marked) ∨ s.readPort off = s.respondBad off := by
  unfold State.readPort
  split
  · exact .inl ⟨_, _, rfl⟩
  · exact .inr rfl

/-- What a discarded read can do: the recording of a model fault, or of BAD_ADDR (R47). -/
theorem discardPort_cases (s : State) (off : Offset) :
    (∃ marked, s.discardPort off = s.noteRead marked) ∨ s.discardPort off = s.raise .badAddr := by
  unfold State.discardPort
  split
  · exact .inl ⟨_, rfl⟩
  · exact .inr rfl

/-- A STATUS read in either form is at the offset of STATUS. -/
theorem isStatusRead_iff (a : Access) :
    a.isStatusRead = true ↔ a = .read statusOffset ∨ a = .discard statusOffset := by
  cases a <;> simp [Access.isStatusRead]

@[simp] theorem portContents_status (s : State) : s.portContents statusOffset = some (s.statusWord, true) := rfl

/-- What a CTRL write can do, by its value (R29). -/
theorem writeCtrl_cases (s : State) (v : Word) :
    (4 ≤ v.toNat ∧ s.writeCtrl v = s.raise .reservedCtrl) ∨
    ((v = 1#64 ∨ v = 3#64) ∧ s.writeCtrl v = s.softReset) ∨
    (v = 2#64 ∧ s.writeCtrl v = s.clearErr) ∨
    (v = 0#64 ∧ s.writeCtrl v = s) := by
  by_cases h : 4 ≤ v.toNat
  · refine .inl ⟨h, ?_⟩
    have : v >>> 2 ≠ 0#64 := by
      intro h0
      have := congrArg BitVec.toNat h0
      simp [BitVec.toNat_ushiftRight, Nat.shiftRight_eq_div_pow] at this
      omega
    simp [State.writeCtrl, this]
  · have hv : v.toNat = 0 ∨ v.toNat = 1 ∨ v.toNat = 2 ∨ v.toNat = 3 := by omega
    have conv : ∀ n, v.toNat = n → v = BitVec.ofNat 64 n := by
      intro n hn; rw [← hn]; simp
    rcases hv with hv | hv | hv | hv
    · have := conv _ hv; subst this; exact .inr (.inr (.inr ⟨rfl, rfl⟩))
    · have := conv _ hv; subst this; exact .inr (.inl ⟨.inl rfl, rfl⟩)
    · have := conv _ hv; subst this; exact .inr (.inr (.inl ⟨rfl, rfl⟩))
    · have := conv _ hv; subst this; exact .inr (.inl ⟨.inr rfl, rfl⟩)

/-- What a write can do, by where it goes (R42 to R47). -/
theorem writePort_cases (s : State) (off : Offset) (v : Word) :
    (∃ k : Fin 16, off = bufOffset k.val ∧ s.writePort off v = s.setBufWord k.val v) ∨
    (∃ i, off = loOffset i ∧ s.writePort off v = s.setLo i v) ∨
    (∃ i, off = hiOffset i ∧ s.writePort off v = s.setHi i v) ∨
    (off = cmdOffset ∧ s.writePort off v = s.issue v) ∨
    (off = ctrlOffset ∧ s.writePort off v = s.writeCtrl v) ∨
    ((off = statusOffset ∨ off.toNat % 8 ≠ 0 ∨ 0x118 ≤ off.toNat) ∧ s.writePort off v = s.raise .badAddr) := by
  rcases targetOf_cases off with ⟨k, h, e⟩ | ⟨i, h, e⟩ | ⟨i, h, e⟩ | ⟨h, e⟩ | ⟨h, e⟩ | ⟨h, e⟩ | ⟨h, e⟩
  · exact .inl ⟨k, h, by simp [State.writePort, e]⟩
  · exact .inr (.inl ⟨i, h, by simp [State.writePort, e]⟩)
  · exact .inr (.inr (.inl ⟨i, h, by simp [State.writePort, e]⟩))
  · exact .inr (.inr (.inr (.inl ⟨h, by simp [State.writePort, e]⟩)))
  · exact .inr (.inr (.inr (.inr (.inr ⟨.inl h, by simp [State.writePort, e]⟩))))
  · exact .inr (.inr (.inr (.inr (.inl ⟨h, by simp [State.writePort, e]⟩))))
  · exact .inr (.inr (.inr (.inr (.inr ⟨.inr h, by simp [State.writePort, e]⟩))))

end Sys2Proof.Machine
end

