-- ==== Sys2Proof/Laws/Step.lean ====
section
/-! SUPPORT. What a command and a step can do, said once (R80, R155, R48, R49). -/

namespace Sys2Proof.Machine

/-- What a command can do: a whole-register write, a write of STATUS.CMP, or the recording of BAD_IMM for an immediate out of
range; with the recording of a model fault (R80, R155). -/
theorem exec_cases {i : Instr} {s t : State} (h : exec i s = .next t) :
    (∃ rd v marked, t = (s.noteRead marked).setWide rd v) ∨
    (∃ ra rb r marked, i = .cmp128 ra rb ∧ t = (s.noteRead marked).setCmp r) ∨
    (i.wellFormed = false ∧ t = s.raise .badImm) := by
  cases i with
  | add128 rd ra rb => cases h; exact .inl ⟨_, _, _, rfl⟩
  | and128 rd ra rb => cases h; exact .inl ⟨_, _, _, rfl⟩
  | cmp128 ra rb => cases h; exact .inr (.inl ⟨_, _, _, _, rfl, rfl⟩)
  | mul64 rd ra rb => cases h; exact .inl ⟨_, _, _, rfl⟩
  | absorb rd imm =>
    simp only [exec, execAbsorb] at h
    split at h
    · cases h; exact .inl ⟨_, _, _, rfl⟩
    · next hk => cases h; exact .inr (.inr ⟨by simpa [Instr.wellFormed] using hk, rfl⟩)
  | combine rd ra rb rc => cases h; exact .inl ⟨_, _, _, rfl⟩
  | finalize rd ra imm =>
    simp only [exec, execFinalize] at h
    split at h
    · cases h; exact .inl ⟨_, _, _, rfl⟩
    · next hk => cases h; exact .inr (.inr ⟨by simpa [Instr.wellFormed] using hk, rfl⟩)

/-- Every command answers a next state (R80, R150). -/
theorem exec_answers (i : Instr) (s : State) : ∃ t, exec i s = .next t := by
  cases i with
  | absorb rd imm => simp only [exec, execAbsorb]; split <;> exact ⟨_, rfl⟩
  | finalize rd ra imm => simp only [exec, execFinalize]; split <;> exact ⟨_, rfl⟩
  | _ => exact ⟨_, rfl⟩

/-- What a completion can do (R66, R155). -/
theorem complete_cases {v : Word} {s t : State} (h : complete v s = .next t) :
    (∃ i, decodeCmd v = .ok i ∧ exec i s = .next t) ∨
    (∃ code, decodeCmd v = .error code ∧ t = s.raise code) := by
  unfold complete at h
  split at h
  · next i hd => exact .inl ⟨i, hd, h⟩
  · next code hd => cases h; exact .inr ⟨code, hd, rfl⟩

theorem complete_answers (v : Word) (s : State) : ∃ t, complete v s = .next t := by
  unfold complete
  split
  · exact exec_answers _ _
  · exact ⟨_, rfl⟩

/-- What a step can do: a STATUS read in flight, a command, a rejected command, nothing, or one access (R48, R49). -/
theorem step_cases {s t : State} (h : step s = .next t) :
    (∃ c, s.inflight = some c ∧ s.pollIsNext c = true ∧ t = s.poll c) ∨
    (∃ c i, s.inflight = some c ∧ decodeCmd c.word = .ok i ∧ exec i { s with inflight := none } = .next t) ∨
    (∃ c code, s.inflight = some c ∧ decodeCmd c.word = .error code ∧
      t = { s with inflight := none }.raise code) ∨
    (s.inflight = none ∧ s.pending = [] ∧ t = s) ∨
    (∃ a rest, s.inflight = none ∧ s.pending = a :: rest ∧ t = { s with pending := rest }.perform a) := by
  unfold step at h
  split at h
  · next c hc =>
    unfold stepInFlight at h
    split at h
    · next hp => cases h; exact .inl ⟨c, hc, hp, rfl⟩
    · rcases complete_cases h with ⟨i, hi, he⟩ | ⟨code, hd, ht⟩
      · exact .inr (.inl ⟨c, i, hc, hi, he⟩)
      · exact .inr (.inr (.inl ⟨c, code, hc, hd, ht⟩))
  · next hn =>
    unfold stepIdle at h
    split at h
    · next hp => cases h; exact .inr (.inr (.inr (.inl ⟨hn, hp, rfl⟩)))
    · next a rest hp => cases h; exact .inr (.inr (.inr (.inr ⟨a, rest, hn, hp, rfl⟩)))

/-- Where the command in flight is next, a step is its completion. -/
theorem step_complete {s : State} {c : InFlight} (hc : s.inflight = some c) (hp : s.pollIsNext c = false) :
    step s = complete c.word { s with inflight := none } := by
  simp [step, hc, stepInFlight, hp]

/-- With nothing in flight, a step performs the host's next access. -/
theorem step_access {s : State} {a : Access} {rest : List Access} (hi : s.inflight = none)
    (hp : s.pending = a :: rest) : step s = .next ({ s with pending := rest }.perform a) := by
  simp [step, hi, stepIdle, hp]

/-- Where no STATUS read may come before it, the completion of the command in flight is next. -/
theorem pollIsNext_eq_false {s : State} {c : InFlight}
    (h : c.polls = 0 ∨ ¬ (s.pending.head? = some (.read statusOffset) ∨ s.pending.head? = some (.discard statusOffset))) :
    s.pollIsNext c = false := by
  rcases h with h | h
  · simp [State.pollIsNext, h]
  · cases hp : s.pending.head? with
    | none => simp [State.pollIsNext, hp]
    | some a =>
      have : a.isStatusRead = false := by
        rw [← Bool.not_eq_true, isStatusRead_iff]
        simpa [hp] using h
      simp [State.pollIsNext, hp, this]

/-- What a STATUS read in flight can do: answer BUSY = 1, or, where its value is thrown away, nothing (R49). -/
theorem poll_cases {s : State} {c : InFlight} (h : s.pollIsNext c = true) :
    c.polls ≠ 0 ∧ ∃ rest,
      (s.pending = .read statusOffset :: rest ∧
        s.poll c = ({ s with pending := rest, inflight := some ⟨c.word, c.polls - 1⟩ } : State).respond statusOffset
          ({ s with pending := rest, inflight := some ⟨c.word, c.polls - 1⟩ } : State).statusWord true) ∨
      (s.pending = .discard statusOffset :: rest ∧
        s.poll c = { s with pending := rest, inflight := some ⟨c.word, c.polls - 1⟩ }) := by
  cases hp : s.pending with
  | nil => simp [State.pollIsNext, hp] at h
  | cons a rest =>
    simp only [State.pollIsNext, hp, List.head?_cons, Option.any_some, Bool.and_eq_true, decide_eq_true_eq] at h
    refine ⟨h.1, rest, ?_⟩
    rcases (isStatusRead_iff a).1 h.2 with rfl | rfl
    · exact .inl ⟨rfl, by simp [State.poll, hp, State.perform, State.readPort]⟩
    · exact .inr ⟨rfl, by simp [State.poll, hp, State.perform, State.discardPort]⟩

/-- What a STATUS read in flight leaves as it was: everything but the pending accesses, the number of such reads still to
come, and the responses, to which at most one without a fault is added (R49). -/
theorem poll_frame {s : State} {c : InFlight} (h : s.pollIsNext c = true) :
    ∃ rest rs, s.poll c = { s with pending := rest, inflight := some ⟨c.word, c.polls - 1⟩, responses := rs } ∧
      ∀ r ∈ rs, r ∈ s.responses ∨ r.fault = none := by
  obtain ⟨_, rest, ⟨_, e⟩ | ⟨_, e⟩⟩ := poll_cases h
  · refine ⟨rest, _, by rw [e]; rfl, ?_⟩
    intro r hr
    rcases List.mem_cons.1 hr with rfl | hr
    · exact .inr rfl
    · exact .inl hr
  · exact ⟨rest, s.responses, by rw [e], fun r hr => .inl hr⟩

/-! ## Runs -/

/-- A run of `m + n` steps is a run of `m` steps and then of `n`. -/
theorem run_add {s t : State} {m : Nat} (h : Host.Core.run Sys2Proof.core m s = .next t) (n : Nat) :
    Host.Core.run Sys2Proof.core (m + n) s = Host.Core.run Sys2Proof.core n t := by
  induction m generalizing s with
  | zero => cases h; simp
  | succ m ih =>
    rw [Nat.succ_add]
    simp only [Host.Core.run] at h ⊢
    split at h
    · next s' hs => exact ih h
    · cases h
    · cases h

/-- One step as a run. -/
theorem run_step {s t : State} (h : step s = .next t) (n : Nat) :
    Host.Core.run Sys2Proof.core (n + 1) s = Host.Core.run Sys2Proof.core n t := by
  have : Sys2Proof.core.step s = .next t := h
  simp [Host.Core.run, this]

end Sys2Proof.Machine
end

