-- ==== Sys2Proof/Laws/Run.lean ====
section
/-! SUPPORT. Runs put together from shorter runs and single steps. -/

namespace Sys2Proof.Machine

theorem Reaches.refl (s : State) : Reaches s s := ⟨0, rfl⟩

theorem Reaches.trans {s t u : State} (h : Reaches s t) (h' : Reaches t u) : Reaches s u := by
  obtain ⟨n, hn⟩ := h
  obtain ⟨m, hm⟩ := h'
  exact ⟨n + m, by rw [run_add hn]; exact hm⟩

theorem Reaches.of_step {s t : State} (h : step s = .next t) : Reaches s t :=
  ⟨1, by rw [run_step h 0]; rfl⟩

end Sys2Proof.Machine
end

