-- ==== Sys2Proof/Tests/Slice0.lean ====
section
/-! SUPPORT. The model's own tests. Expected values are those of 95_test_vectors.md (its identifiers V-… are named) or are
written out by hand from the rule named; then one witness for the hypotheses of each statement. -/

namespace Sys2Proof.Tests

open Sys2Proof.Machine Sys2Proof.Reference

/-! ## Helpers -/

/-- TCFG of 95_test_vectors.md section 0. -/
def tcfg : ConstStore where
  magic := #v[0x1111111111111111, 0x2222222222222222, 0x3333333333333333, 0x4444444444444444, 0x5555555555555555,
    0x6666666666666666, 0x7777777777777777, 0x8888888888888888, 0x9999999999999999, 0xAAAAAAAAAAAAAAAA,
    0xBBBBBBBBBBBBBBBB, 0xCCCCCCCCCCCCCCCC, 0xDDDDDDDDDDDDDDDD, 0xEEEEEEEEEEEEEEEE, 0xFFFFFFFFFFFFFFFF,
    0x1111111111111110]
  roundConst := ⟨0x0123456789ABCDEF, 0xFEDCBA9876543210⟩
  finalConst0 := 0xF0F0F0F0F0F0F0F0
  finalConst1 := 0x0F0F0F0F0F0F0F0F

/-- Reset, built with TCFG. -/
def base : State := { State.reset with consts := tcfg }

/-- `base` with W0 and W1 written. -/
def two (a b : Wide) : State := (base.setWide 0 a).setWide 1 b

/-- `base` with BUF[0] and BUF[1] written. -/
def lanes (a b : Word) : State := (base.setBufWord 0 a).setBufWord 1 b

/-- `base` with one access to come. -/
def asked (a : Access) : State := { base with pending := [a] }

/-- `base` with a command in flight. -/
def flying (v : Word) (polls : Nat) : State := { base with cmd := v, inflight := some ⟨v, polls⟩ }

/-- `s` with one read to come. -/
def reading (s : State) (off : Offset) : State := { s with pending := [.read off] }

/-- The next state of an outcome, if it is one. -/
def after : Host.Outcome State Fault Refusal → Option State
  | .next t => some t
  | .fault _ => none
  | .refused _ => none

def allOnes : Wide := ⟨0xFFFFFFFFFFFFFFFF, 0xFFFFFFFFFFFFFFFF⟩

/-! ## WellFormed refuses the ill-formed terms (R65) -/

theorem test_absorb_9_illformed : (Instr.absorb 0 9#8).wellFormed = false := by decide
theorem test_absorb_8_wellformed : (Instr.absorb 0 8#8).wellFormed = true := by decide
theorem test_finalize_128_illformed : (Instr.finalize 0 (.w 0) 0x80#8).wellFormed = false := by decide
theorem test_finalize_127_wellformed : (Instr.finalize 0 (.w 0) 0x7F#8).wellFormed = true := by decide

/-! ## Decoding: words written out from R61 and R62, imm:8 rc:4 rb:4 ra:4 rd:4 op:8 -/

/-- V-ENC-01, ADD128 W1, W2, W3. -/
theorem test_decode_add128 :
    decodeCmd 0b00000000_0000_0011_0010_0001_00000001#64 = .ok (.add128 1 (.w 2) (.w 3)) := by decide
/-- V-ENC-02, AND128 W7, KR, KR. -/
theorem test_decode_and128 :
    decodeCmd 0b00000000_0000_1000_1000_0111_00000010#64 = .ok (.and128 7 .kr .kr) := by decide
/-- V-ENC-03, CMP128 W2, W0. -/
theorem test_decode_cmp128 :
    decodeCmd 0b00000000_0000_0000_0010_0000_00000011#64 = .ok (.cmp128 (.w 2) (.w 0)) := by decide
/-- R89's example, MUL64 W2, W0, W1. -/
theorem test_decode_mul64 :
    decodeCmd 0b00000000_0000_0001_0000_0010_00000100#64 = .ok (.mul64 2 (.w 0) (.w 1)) := by decide
/-- V-ENC-04, ABSORB W0, #8. -/
theorem test_decode_absorb :
    decodeCmd 0b00001000_0000_0000_0000_0000_00000101#64 = .ok (.absorb 0 8#8) := by decide
/-- V-ENC-05, COMBINE W0, W0, KR, W1. -/
theorem test_decode_combine :
    decodeCmd 0b00000000_0001_1000_0000_0000_00000110#64 = .ok (.combine 0 (.w 0) .kr (.w 1)) := by decide
/-- V-ENC-06, FINALIZE W2, W0, #127. -/
theorem test_decode_finalize :
    decodeCmd 0b01111111_0000_0000_0000_0010_00000111#64 = .ok (.finalize 2 (.w 0) 127#8) := by decide

/-- V-ENC-07 and V-ENC-08. -/
theorem test_reject_opcode :
    decodeCmd 0x00000000#64 = .error .illegalOpcode ∧ decodeCmd 0x00000008#64 = .error .illegalOpcode := by decide
/-- V-ENC-09, V-ENC-10, V-ENC-11 and V-ENC-12. -/
theorem test_reject_reserved :
    decodeCmd 0x00110201#64 = .error .reservedField ∧ decodeCmd 0x0000000100010201#64 = .error .reservedField ∧
    decodeCmd 0x00000103#64 = .error .reservedField ∧ decodeCmd 0x00001005#64 = .error .reservedField := by decide
/-- V-ENC-13: the reserved fields are checked before the selectors. -/
theorem test_reject_order : decodeCmd 0x00110801#64 = .error .reservedField := by decide
/-- V-ENC-14 and V-ENC-15. -/
theorem test_reject_selector :
    decodeCmd 0x00010801#64 = .error .badReg ∧ decodeCmd 0x00019201#64 = .error .badReg := by decide
/-- V-ENC-16 and V-ENC-17. -/
theorem test_reject_immediate :
    decodeCmd 0x09000605#64 = .error .badImm ∧ decodeCmd 0x80000207#64 = .error .badImm := by decide

/-- R142's words. -/
theorem test_encode_r142 :
    encode (.absorb 1 8#8) = 0x08000105#32 ∧ encode (.add128 0 (.w 0) .kr) = 0x00080001#32 ∧
    encode (.combine 0 (.w 0) .kr (.w 1)) = 0x00180006#32 ∧ encode (.finalize 2 (.w 0) 4#8) = 0x04000207#32 := by decide

/-! ## The commands -/

/-- V-ADD-02 and V-ADD-05: the low carry. -/
theorem test_add128_carry :
    (after (exec (.add128 2 (.w 0) (.w 1)) (two ⟨0, 0xFFFFFFFFFFFFFFFF⟩ ⟨0, 1⟩))).map (·.wide 2) = some ⟨1, 0⟩ ∧
    add128 ⟨0, 0x8000000000000000⟩ ⟨0, 0x8000000000000000⟩ = ⟨1, 0⟩ := by decide
/-- V-ADD-07: the destination is both sources. -/
theorem test_add128_alias :
    (after (exec (.add128 0 (.w 0) (.w 0)) (two ⟨0x0123456789ABCDEF, 0xFEDCBA9876543210⟩ ⟨0, 0⟩))).map (·.wide 0)
      = some ⟨0x02468ACF13579BDF, 0xFDB97530ECA86420⟩ := by decide

/-- V-AND-03. -/
theorem test_and128 :
    (after (exec (.and128 2 (.w 0) (.w 1))
      (two ⟨0xF0F0F0F0F0F0F0F0, 0x0123456789ABCDEF⟩ ⟨0x0FF00FF00FF00FF0, 0xFFFFFFFF00000000⟩))).map (·.wide 2)
      = some ⟨0x00F000F000F000F0, 0x0123456700000000⟩ := by decide
/-- V-AND-05: LDKR, with no model fault. -/
theorem test_and128_kr :
    (after (exec (.and128 7 .kr .kr) base)).map (fun t => (t.wide 7, t.modelFault))
      = some (⟨0x0123456789ABCDEF, 0xFEDCBA9876543210⟩, none) := by decide

/-- V-CMP-02: the high limb decides. -/
theorem test_cmp128_high :
    (after (exec (.cmp128 (.w 0) (.w 1)) (two ⟨2, 0⟩ ⟨1, 0xFFFFFFFFFFFFFFFF⟩))).map (·.cmp) = some .gt := by decide
/-- V-CMP-04: the low limb decides; STATUS.CMP is 10 (R26: bits 9:8). -/
theorem test_cmp128_low :
    (after (exec (.cmp128 (.w 0) (.w 1)) (two ⟨0, 5⟩ ⟨0, 6⟩))).map (·.statusWord) = some 0x200#64 := by decide

/-- V-MUL-06. -/
theorem test_mul64 :
    (after (exec (.mul64 2 (.w 0) (.w 1)) (two ⟨0, 0x0123456789ABCDEF⟩ ⟨0, 0xFEDCBA9876543210⟩))).map (·.wide 2)
      = some ⟨0x0121FA00AD77D742, 0x2236D88FE5618CF0⟩ := by decide
/-- V-MUL-08: the high limbs are ignored. -/
theorem test_mul64_high_limbs :
    (after (exec (.mul64 3 (.w 0) (.w 1)) (two ⟨0xDEAD, 2⟩ ⟨0xBEEF, 3⟩))).map (·.wide 3) = some ⟨0, 6⟩ := by decide

/-- V-ABS-10: one lane of "test". -/
theorem test_absorb :
    (after (exec (.absorb 0 1#8) (lanes 0x0000000074736574 0))).map (·.wide 0)
      = some ⟨0x02468ACF22DE7633, 0xDB97530EBAFF67AA⟩ := by decide
/-- V-ABS-09: both words wrap to 0 when the constants are added. -/
theorem test_absorb_wrap :
    (after (exec (.absorb 0 1#8) (lanes 0xEEEEEEEEEEEEEEEF 0xDDDDDDDDDDDDDDDE))).map (·.wide 0) = some ⟨0, 0⟩ := by decide

/-- V-CMB-09. -/
theorem test_combine :
    (after (exec (.combine 0 (.w 0) .kr (.w 1)) (two tcfg.roundConst mask126))).map (·.wide 0)
      = some ⟨0x022B08854C076206, 0x9CC018E97C0EE84A⟩ := by decide
/-- V-CMB-10 and V-CMB-03: the 64-bit wraps, and the shift by 31. -/
theorem test_combine_wraps :
    combineF allOnes allOnes allOnes = ⟨0x7FFFFFFAFFFFFFF9, 0xFFFFFFF9FFFFFFF7⟩ ∧
    combineF ⟨0, 0⟩ ⟨0, 0⟩ ⟨0x8000000000000000, 0⟩ = ⟨0, 1⟩ := by decide

/-- V-FIN-12, which is program P1's FINALIZE. -/
theorem test_finalize :
    (after (exec (.finalize 2 (.w 0) 4#8) (two ⟨0x0369D036AC8A4423, 0xDA740DA7315399BA⟩ ⟨0, 0⟩))).map (·.wide 2)
      = some ⟨0, 0x70F89E164B1C4913⟩ := by decide
/-- V-FIN-13 and V-FIN-15 (the two adjustments of step 9), V-FIN-06 (step 2's increment). -/
theorem test_finalize_adjustments :
    finalF 0xFFFFFFFFFFFFFFFF 0xFFFFFFFFFFFFFFFF ⟨0, 0⟩ 0 = 0x0000000000010000#64 ∧
    finalF 1 0xFFFFFFFFFFFFFFFF ⟨0, 0⟩ 0 = 0x0000000000000100#64 ∧
    finalMix ⟨0x8000000000000000, 0⟩ 127 = ⟨0, 0x3F9⟩ := by decide

/-! ## The port, the error record, reset -/

/-- V-PRT-01 and V-PRT-03: unmapped and misaligned reads. -/
theorem test_bad_reads :
    (after (step (asked (.read 0x118#9)))).map (fun t => (t.responses, t.errCode, t.modelFault))
      = some ([⟨0x118#9, 0#64, some .errValueRead⟩], .badAddr, some .errValueRead) ∧
    (after (step (asked (.read 0x004#9)))).map (·.statusWord) = some 0x52#64 := by decide
/-- Program P2's read at 0x004, whose 0 it does not use: ERRCODE stays 4, and there is no model fault (R160). -/
theorem test_discarded_bad_read :
    (after (step { asked (.discard 0x004#9) with err := true, errCode := .badImm, cmp := .gt })).map
      (fun t => (t.statusWord, t.responses, t.modelFault)) = some (0x142#64, [], none) := by decide
/-- V-PRT-02 and V-PRT-04. -/
theorem test_bad_writes :
    (after (step (asked (.write 0x108#9 1#64)))).map (·.errCode) = some .badAddr ∧
    (after (step (asked (.write 0x110#9 4#64)))).map (·.errCode) = some .reservedCtrl := by decide
/-- V-PRT-05. -/
theorem test_ctrl_reads_zero :
    (after (step (asked (.read 0x110#9)))).map (fun t => (t.responses, t.err))
      = some ([⟨0x110#9, 0#64, none⟩], false) := by decide
/-- V-PRT-06: W0.hi alone is written. -/
theorem test_high_limb_write :
    (after (step (asked (.write 0x088#9 5#64)))).map (fun t => ((t.wide 0).hi, t.marks 0)) = some (5#64, ⟨true, false⟩) := by
  decide
/-- V-PRT-07: SOFT_RESET with CLR_ERR set too. -/
theorem test_soft_reset :
    (after (step { two allOnes allOnes with err := true, errCode := .badImm, pending := [.write 0x110#9 3#64] })).map
      (fun t => (t.marks 0, t.err, t.errCode, t.buf)) = some (⟨false, false⟩, false, .noError, []) := by decide
/-- Program P1: BUF[0] = 0x74736574 holds the bytes 74 65 73 74 (R41). -/
theorem test_little_endian :
    (after (step (asked (.write 0x000#9 0x0000000074736574#64)))).map (fun t => [0, 1, 2, 3, 4].map t.bufByte)
      = some [some 0x74#8, some 0x65#8, some 0x73#8, some 0x74#8, some 0#8] := by decide
/-- Program P2: a CMD write with ERR = 1 is dropped, and its value is read back. -/
theorem test_dropped_command :
    (after (step { base with err := true, errCode := .illegalOpcode, pending := [.write 0x100#9 0x00010501#64] })).map
      (fun t => (t.cmd, t.inflight, t.marks 5)) = some (0x00010501#64, none, ⟨false, false⟩) := by decide
/-- R49: a STATUS read in flight shows BUSY. -/
theorem test_busy :
    (after (step { flying 0x00000103#64 1 with pending := [.read 0x108#9] })).map (·.responses)
      = some [⟨0x108#9, 1#64, none⟩] ∧
    (after (step { flying 0x00000103#64 1 with pending := [.discard 0x108#9] })).map (·.inflight)
      = some (some ⟨0x00000103#64, 0⟩) := by decide
/-- V-ENC-11 as a step: the error is recorded. -/
theorem test_step_rejects : (after (step (flying 0x00000103#64 0))).map (·.statusWord) = some 0x22#64 := by decide
/-- R23: a read of an unwritten limb is recorded. -/
theorem test_unwritten_read :
    (after (step (asked (.read 0x080#9)))).map (·.modelFault) = some (some .unwrittenRead) := by decide

/-! ## The orchestration sequence -/

/-- S8 of 95_test_vectors.md. -/
theorem test_fold32 : fold32 0x0123456789ABCDEF#64 = 0x88888888#32 := by decide
/-- Section 3: the empty input, and "test". -/
theorem test_digest64 :
    digest64 tcfg [] = 0x7BA98E1002B22CFC#64 ∧ digest64 tcfg [0x74#8, 0x65#8, 0x73#8, 0x74#8] = 0x70F89E164B1C4913#64 := by
  decide
/-- R142: the host accepts the digest of the two last reads unless STATUS.ERR, bit 1, is 1. -/
theorem test_accepted_digest :
    acceptedDigest [⟨0x108#9, 0x100#64, none⟩, ⟨0x0A0#9, 7#64, none⟩] = some 7#64 ∧
    acceptedDigest [⟨0x108#9, 0x012#64, none⟩, ⟨0x0A0#9, 7#64, none⟩] = none := by decide
/-- R146 (a), (e): the default seed's bytes, and the fixed value. -/
theorem test_wrappers : be32 defaultSeed = [0x61#8, 0x24#8, 0x7F#8, 0xBF#8] ∧ fixedValue.toInt = -8408506833887075802 := by
  decide

/-! ## The first instruction after reset, and the host's view of the decoder -/

theorem test_table_word : decodeTableWord 32 0x00010204 = some (.mul64 2 (.w 0) (.w 1)) ∧ decodeTableWord 32 0 = none := by
  decide
theorem test_first_instruction :
    (after (step (State.reset.withFetchWord 32 0x00010204))).map (fun t => (t.wide 2, t.cmd, t.inflight))
      = some (⟨0, 0⟩, 0x00010204#64, none) := by decide

/-! ## Witnesses: for each statement with hypotheses, states and operands that meet them, clause by clause -/

theorem witness_DecodeOfEncodeIsIdentity :
    (Instr.absorb 7 8#8).wellFormed = true ∧ (Instr.finalize 7 .kr 127#8).wellFormed = true ∧
    (Instr.combine 7 .kr (.w 7) (.w 0)).wellFormed = true := by decide
theorem witness_EncodeOfDecodeIsIdentity :
    decodeCmd 0x7F008707#64 = .ok (.finalize 7 .kr 127#8) := by decide

/-- Check 1: both ends of the illegal range. -/
theorem witness_CommandChecksInOrder_opcode :
    op 0x00#64 = 0 ∧ 7 < op 0x08#64 ∧ 7 < op 0xFF#64 := by decide
/-- Check 2: V-ENC-11 and V-ENC-10, at the ends of the opcode range. -/
theorem witness_CommandChecksInOrder_reserved :
    (1 ≤ op 0x00000103#64 ∧ op 0x00000103#64 ≤ 7 ∧ ¬ ReservedZero 0x00000103#64) ∧
    (op 0x00010207#64 = 7 ∧ ¬ ReservedZero 0x00010207#64) ∧
    (op 0x0000000100010201#64 = 1 ∧ ¬ ReservedZero 0x0000000100010201#64) := by
  simp [ReservedZero, op, nibble, imm]
/-- Check 3: a destination of 8 and a source of 9. -/
theorem witness_CommandChecksInOrder_selectors :
    (op 0x00010801#64 = 1 ∧ ReservedZero 0x00010801#64 ∧ ¬ SelectorsLegal 0x00010801#64) ∧
    (op 0x00900006#64 = 6 ∧ ReservedZero 0x00900006#64 ∧ ¬ SelectorsLegal 0x00900006#64) := by
  simp [ReservedZero, SelectorsLegal, op, nibble, imm]
/-- Check 4: a lane count of 9 and a tail length of 128. -/
theorem witness_CommandChecksInOrder_immediate :
    (op 0x09000605#64 = 5 ∧ ReservedZero 0x09000605#64 ∧ SelectorsLegal 0x09000605#64 ∧ ¬ ImmediateLegal 0x09000605#64) ∧
    (op 0x80000207#64 = 7 ∧ ReservedZero 0x80000207#64 ∧ SelectorsLegal 0x80000207#64 ∧ ¬ ImmediateLegal 0x80000207#64) := by
  simp [ReservedZero, SelectorsLegal, ImmediateLegal, op, nibble, imm]
/-- All checks passed, at the ends of the ranges. -/
theorem witness_CommandChecksInOrder_legal :
    (op 0x08000705#64 = 5 ∧ ReservedZero 0x08000705#64 ∧ SelectorsLegal 0x08000705#64 ∧ ImmediateLegal 0x08000705#64) ∧
    (op 0x7F008707#64 = 7 ∧ ReservedZero 0x7F008707#64 ∧ SelectorsLegal 0x7F008707#64 ∧ ImmediateLegal 0x7F008707#64) ∧
    (op 0x00888706#64 = 6 ∧ ReservedZero 0x00888706#64 ∧ SelectorsLegal 0x00888706#64 ∧ ImmediateLegal 0x00888706#64) := by
  simp [ReservedZero, SelectorsLegal, ImmediateLegal, op, nibble, imm]

/-- No STATUS read left, and a next access that is none; a word that decodes, and one that does not. -/
theorem witness_StepRunsDecodedCommand :
    (flying 0x00010204#64 0).inflight = some ⟨0x00010204#64, 0⟩ ∧
    (flying 0#64 3).inflight = some ⟨0#64, 3⟩ ∧ ¬ StatusReadNext (flying 0#64 3) ∧
    decodeCmd 0x00010204#64 = .ok (.mul64 2 (.w 0) (.w 1)) ∧ decodeCmd 0#64 = .error .illegalOpcode := by
  unfold StatusReadNext; decide
theorem witness_FetchWordRunsNext : decodeTableWord 32 0x7F000207 = some (.finalize 2 (.w 0) 127#8) := by decide
theorem witness_AccessesWaitForCompletion :
    let s := { flying 0x00010204#64 3 with pending := [.write 0x110#9 1#64] }
    s.inflight = some ⟨0x00010204#64, 3⟩ ∧ ¬ StatusReadNext s := by unfold StatusReadNext; decide
theorem witness_StatusReadInFlightShowsBusy :
    let s := { flying 0x00010204#64 1 with pending := [.read 0x108#9] }
    s.inflight = some ⟨0x00010204#64, 1⟩ ∧ 0 < (⟨0x00010204#64, 1⟩ : InFlight).polls ∧ s.pending = .read 0x108#9 :: [] ∧
    { s with pending := [.discard 0x108#9] }.pending = .discard 0x108#9 :: [] := by decide
theorem witness_CommandInFlightCompletes : (flying 0x00010204#64 5).inflight = some ⟨0x00010204#64, 5⟩ := by decide
theorem witness_IdleBlockStaysAsItIs : base.inflight = none ∧ base.pending = [] := by decide

theorem witness_AbsorbSumsLanesModulo2Pow126 : (0#8).toNat ≤ 8 ∧ (8#8).toNat ≤ 8 := by decide
theorem witness_CombineOfZeroPassesAddend :
    (two ⟨0, 0⟩ mask126).src (.w 0) = Wide.zero ∧ ((two ⟨0, 0⟩ mask126).src (.w 1)).value < 2 ^ 126 := by decide
theorem witness_FinalizeFollowsTwoStageReduction : (0#8).toNat < 128 ∧ (127#8).toNat < 128 := by decide
/-- At the threshold, with the first adjustment and without it. -/
theorem witness_SecondAdjustmentIsCanonical :
    let big (h : Wide) := 2 ^ 64 - 258 <
      (if h.value / 2 ^ 64 ≠ 0 then (h.value % 2 ^ 64 + 257) % 2 ^ 64 else h.value % 2 ^ 64)
    big ⟨0, 0xFFFFFFFFFFFFFEFF⟩ ∧ big ⟨1, 0xFFFFFFFFFFFFFDFE⟩ := by decide
theorem witness_AbsorbResultBelow2Pow126 : (8#8).toNat ≤ 8 := by decide
/-- Two states that differ in BUF[1], under zero lanes; and in BUF[2], under one. -/
theorem witness_AbsorbReadsOnlyItsLanes :
    (0#8).toNat ≤ 8 ∧ (1#8).toNat ≤ 8 ∧ (lanes 1 2).consts = (lanes 1 3).consts ∧
    (∀ j < 2 * (0#8).toNat, (lanes 1 2).bufWord j = (lanes 1 3).bufWord j) ∧
    (∀ j < 2 * (1#8).toNat, (lanes 1 2).bufWord j = ((lanes 1 2).setBufWord 2 7).bufWord j) ∧
    (lanes 1 2).consts = ((lanes 1 2).setBufWord 2 7).consts := by decide
theorem witness_Mul64IgnoresHighLimbs :
    let s := two ⟨1, 2⟩ ⟨3, 4⟩
    let s' := two ⟨5, 2⟩ ⟨6, 4⟩
    s.consts = s'.consts ∧ s.modelFault = s'.modelFault ∧
      (∀ i, (s.wide i).lo = (s'.wide i).lo) ∧ (∀ i, (s.marks i).lo = (s'.marks i).lo) := by decide

theorem witness_RegisterCommandsFrame :
    destination (.add128 0 (.w 0) .kr) = some 0 ∧ destination (.and128 7 .kr .kr) = some 7 ∧
    destination (.mul64 3 (.w 0) (.w 1)) = some 3 ∧
    destination (.absorb 7 8#8) = some 7 ∧ (Instr.absorb 7 8#8).wellFormed = true ∧
    destination (.combine 0 (.w 0) .kr (.w 1)) = some 0 ∧
    destination (.finalize 2 (.w 0) 127#8) = some 2 ∧ (Instr.finalize 2 (.w 0) 127#8).wellFormed = true := by decide
theorem witness_IllFormedImmediateRecordsBadImm :
    (Instr.absorb 0 9#8).wellFormed = false ∧ (Instr.finalize 0 (.w 0) 0x80#8).wellFormed = false := by decide
/-- Written sources. -/
theorem witness_UnwrittenSourceIsRecorded_written :
    ReadsWritten (two ⟨1, 2⟩ ⟨3, 4⟩) (.add128 2 (.w 0) (.w 1)) ∧ ReadsWritten base (.absorb 0 0#8) := by
  refine ⟨⟨?_, ?_⟩, ?_⟩
  · intro i h; cases h; decide
  · intro i h; cases h; decide
  · intro j h; exact absurd h (by simp)
/-- Unwritten sources: MUL64 with the low limb unwritten. -/
theorem witness_UnwrittenSourceIsRecorded_unwritten : ¬ ReadsWritten base (.mul64 2 (.w 0) .kr) := by
  intro h; exact absurd (h.1 0 rfl) (by decide)

/-- What a statement about a port read asks of a state: nothing in flight, the read next, and `P` of it. -/
def ReadNext (P : State → Offset → Prop) (s : State) (off : Offset) : Prop :=
  s.inflight = none ∧ s.pending = .read off :: [] ∧ P s off

/-- Every kind of readable location, at the end of its range. -/
theorem witness_PortReadReturnsContents :
    ReadNext (PortHolds · · 3#64) (reading ((lanes 1 2).setBufWord 15 3) 0x078#9) 0x078#9 ∧
    ReadNext (PortHolds · · 5#64) (reading (base.setWide 7 ⟨4, 5⟩) 0x0F0#9) 0x0F0#9 ∧
    ReadNext (PortHolds · · 4#64) (reading (base.setWide 7 ⟨4, 5⟩) 0x0F8#9) 0x0F8#9 ∧
    ReadNext (PortHolds · · 9#64) (reading { base with cmd := 9 } 0x100#9) 0x100#9 ∧
    ReadNext (PortHolds · · 0#64) (reading base 0x108#9) 0x108#9 ∧
    ReadNext (PortHolds · · 0#64) (reading base 0x110#9) 0x110#9 :=
  ⟨⟨rfl, rfl, .inl ⟨15, by decide, by decide, by decide⟩⟩,
    ⟨rfl, rfl, .inr (.inl ⟨7, by decide, by decide, by decide⟩)⟩,
    ⟨rfl, rfl, .inr (.inr (.inl ⟨7, by decide, by decide, by decide⟩))⟩,
    ⟨rfl, rfl, .inr (.inr (.inr (.inl ⟨by decide, by decide⟩)))⟩,
    ⟨rfl, rfl, .inr (.inr (.inr (.inr (.inl ⟨by decide, by decide⟩))))⟩,
    ⟨rfl, rfl, .inr (.inr (.inr (.inr (.inr ⟨by decide, rfl⟩))))⟩⟩
theorem witness_UnwrittenPortReadIsRecorded :
    ReadNext PortUnwritten (reading base 0x078#9) 0x078#9 ∧ ReadNext PortUnwritten (reading base 0x0F0#9) 0x0F0#9 ∧
    ReadNext PortUnwritten (reading base 0x0F8#9) 0x0F8#9 :=
  ⟨⟨rfl, rfl, .inl ⟨15, by decide, by decide, by decide⟩⟩, ⟨rfl, rfl, .inr (.inl ⟨7, by decide, by decide⟩)⟩,
    ⟨rfl, rfl, .inr (.inr ⟨7, by decide, by decide⟩)⟩⟩
/-- Discarded reads of a written word, an unwritten limb and an unmapped offset. -/
theorem witness_DiscardedReadReturnsNothing :
    let s := { (lanes 1 2).setBufWord 15 3 with pending := [.discard 0x078#9] }
    let u := asked (.discard 0x0F8#9)
    (s.inflight = none ∧ s.pending = .discard 0x078#9 :: [] ∧ ∃ v, PortHolds s 0x078#9 v) ∧
    (u.inflight = none ∧ u.pending = .discard 0x0F8#9 :: [] ∧ PortUnwritten u 0x0F8#9) ∧
    (asked (.discard 0x118#9)).pending = .discard 0x118#9 :: [] ∧ BadOffset 0x118#9 :=
  ⟨⟨rfl, rfl, 3#64, .inl ⟨15, by decide, by decide, by decide⟩⟩,
    ⟨rfl, rfl, .inr (.inr ⟨7, by decide, by decide⟩)⟩, rfl, .inr (by decide)⟩
/-- Misaligned and unmapped offsets, at the ends of the unmapped range; and the last mapped offset, which is neither. -/
theorem witness_BadAccessRecordsBadAddr :
    BadOffset 0x001#9 ∧ BadOffset 0x118#9 ∧ BadOffset 0x1F8#9 ∧ BadOffset 0x1FF#9 ∧ ¬ BadOffset 0x110#9 ∧
    (reading base 0x118#9).inflight = none ∧ (reading base 0x118#9).pending = .read 0x118#9 :: [] ∧
    (asked (.write 0x1FF#9 1#64)).inflight = none ∧ (asked (.write 0x1FF#9 1#64)).pending = .write 0x1FF#9 1#64 :: [] ∧
    (asked (.write 0x108#9 1#64)).inflight = none ∧ (asked (.write 0x108#9 1#64)).pending = .write 0x108#9 1#64 :: [] := by
  unfold BadOffset; decide
theorem witness_BufWriteReplacesOneWord :
    (asked (.write 0x078#9 1#64)).pending = .write (BitVec.ofNat 9 (8 * 15)) 1#64 :: [] ∧
    (asked (.write 0x078#9 1#64)).inflight = none := by decide
theorem witness_LimbWriteLeavesOtherLimb :
    (asked (.write 0x0F0#9 1#64)).pending = .write (BitVec.ofNat 9 (0x080 + 16 * (7 : WReg).val)) 1#64 :: [] ∧
    (asked (.write 0x0F8#9 1#64)).pending = .write (BitVec.ofNat 9 (0x088 + 16 * (7 : WReg).val)) 1#64 :: [] ∧
    (asked (.write 0x0F8#9 1#64)).inflight = none := by decide
theorem witness_CmdWriteIssuesOrDrops :
    let s := asked (.write 0x100#9 1#64)
    s.inflight = none ∧ s.pending = .write 0x100#9 1#64 :: [] ∧ s.err = false ∧ { s with err := true }.err = true := by
  decide
theorem witness_CtrlWriteActions :
    (asked (.write 0x110#9 4#64)).pending = .write 0x110#9 4#64 :: [] ∧ (asked (.write 0x110#9 4#64)).inflight = none ∧
    4 ≤ (4#64).toNat ∧ ¬ 4 ≤ (3#64).toNat := by decide

/-- A state with BUF written, a command in flight and an access waiting meets the invariant, and steps on. -/
theorem witness_EveryStepKeepsStateInvariant :
    let s := { lanes 1 2 with cmd := 0x00088702#64, inflight := some ⟨0x00088702#64, 0⟩, pending := [.read 0x080#9] }
    s.Inv ∧ (after (step s)).isSome :=
  ⟨⟨by decide, by decide, by decide, by decide, by intro c h; cases h; rfl, by decide⟩, by decide⟩
theorem witness_ConstantStoreIsNeverWritten :
    step (asked (.write 0x110#9 4#64)) = .next { base with err := true, errCode := .reservedCtrl } := by rfl
/-- A CMP128 command, and a SOFT_RESET, that change STATUS.CMP. -/
theorem witness_OnlyCmp128AndResetWriteCmp :
    (after (step { two ⟨1, 0⟩ ⟨0, 0⟩ with inflight := some ⟨0x00010003#64, 0⟩ })).map (·.cmp) = some .gt ∧
    (two ⟨1, 0⟩ ⟨0, 0⟩).cmp = .eq ∧
    (after (step { asked (.write 0x110#9 1#64) with cmp := .lt })).map (·.cmp) = some .eq := by decide
/-- A BUF write, and a SOFT_RESET, that change byte 127. -/
theorem witness_OnlyHostWritesBuf :
    (after (step (asked (.write 0x078#9 0#64)))).map (·.bufByte 127) = some (some 0#8) ∧ base.bufByte 127 = none ∧
    (after (step { (base.setBufWord 15 0) with pending := [.write 0x110#9 1#64] })).map (·.bufByte 127) = some none := by
  decide
/-- An error that stays, and one that is cleared. -/
theorem witness_ErrorIsStickyUntilCleared :
    (after (step { asked (.read 0x001#9) with err := true, errCode := .badReg })).map (fun t => (t.err, t.errCode))
      = some (true, .badReg) ∧
    (after (step { asked (.write 0x110#9 2#64) with err := true, errCode := .badReg })).map (·.err) = some false := by decide
/-- A state with ERR = 1 meets the invariant; a host write of a limb, and a SOFT_RESET, go ahead in it. -/
theorem witness_NoCommandRunsWhileError :
    { asked (.write 0x0F8#9 1#64) with err := true, errCode := .badReg }.Inv ∧
    { asked (.write 0x0F8#9 1#64) with err := true, errCode := .badReg }.err = true ∧
    (after (step { asked (.write 0x0F8#9 1#64) with err := true, errCode := .badReg })).map (fun t => (t.wide 7).hi)
      = some 1#64 :=
  ⟨⟨by decide, by decide, by decide, by decide, (by intro c h; cases h), by decide⟩, rfl, by decide⟩
theorem witness_ModelFaultIsNeverTakenBack :
    let s := { asked (.write 0x110#9 4#64) with modelFault := some .unwrittenRead }
    s.modelFault = some .unwrittenRead ∧ (after (Host.Core.run Sys2Proof.core 3 s)).isSome := by decide
/-- An erroneous read, then CLR_ERR: the run ends, and STATUS shows no error. -/
theorem witness_ErroneousReadIsNeverTrusted :
    let s := { base with pending := [.read 0x004#9, .write 0x110#9 2#64] }
    s.inflight = none ∧ s.pending.head? = some (.read 0x004#9) ∧ BadOffset 0x004#9 ∧
      (after (step s)).isSome ∧
      (after (Host.Core.run Sys2Proof.core 2 s)).map (fun t => (t.pending, t.inflight, t.err)) = some ([], none, false) := by
  unfold BadOffset; decide
/-- One full block and a tail of one lane. -/
theorem witness_HostSequenceComputesDigest64 :
    let x := List.replicate 129 (0x5A#8)
    let s := { base with pending := digestAccesses x }
    s.inflight = none ∧ s.err = false ∧ s.pending = digestAccesses x := ⟨rfl, rfl, rfl⟩
theorem witness_HostSequenceAfterErrorIsNotAccepted :
    let x := List.replicate 129 (0x5A#8)
    let s := { base with err := true, errCode := .badReg, pending := digestAccesses x }
    s.inflight = none ∧ s.err = true ∧ s.pending = digestAccesses x := ⟨rfl, rfl, rfl⟩

end Sys2Proof.Tests
end

section
/-! PROOFS. Rules of the state's operations that the proofs below cite: what a note of a read, a port read, a CTRL write
and a well-formed command come to, each said once. -/

namespace Sys2Proof.Machine

open Sys2Proof.Reference

/-! ## Recorded faults -/

@[simp] theorem noteRead_false (s : State) : s.noteRead false = s.recordFault .unwrittenRead := rfl

/-- Recording a fault, as one update: the first fault of the run is kept (log 2). -/
theorem recordFault_eq (s : State) (f : Fault) :
    s.recordFault f = { s with modelFault := s.modelFault.or (some f) } := by
  apply State.ext_fields <;> simp

/-! ## The written marks as propositions -/

theorem srcMarked_iff (s : State) (x : Src) : s.srcMarked x = true ↔ BothWritten s x := by
  cases x <;> simp [State.srcMarked, BothWritten]

theorem srcLoMarked_iff (s : State) (x : Src) : s.srcLoMarked x = true ↔ LowWritten s x := by
  cases x <;> simp [State.srcLoMarked, LowWritten]

theorem bufMarked_iff (s : State) (k : Nat) : s.bufMarked k = true ↔ ∃ v, readWord s.buf k = some v :=
  Option.isSome_iff_exists

theorem bufMarkedBelow_iff (s : State) (n : Nat) :
    s.bufMarkedBelow n = true ↔ ∀ j < n, ∃ v, readWord s.buf j = some v := by
  induction n with
  | zero => simp [State.bufMarkedBelow]
  | succ n ih =>
    rw [State.bufMarkedBelow, Bool.and_eq_true, ih, bufMarked_iff, Nat.forall_lt_succ_right]

/-! ## Commands -/

/-- Whether everything a command reads is marked written, as the meanings compute it (R23, R89, R101). -/
def State.readsMarked (s : State) : Instr → Bool
  | .add128 _ ra rb => s.srcMarked ra && s.srcMarked rb
  | .and128 _ ra rb => s.srcMarked ra && s.srcMarked rb
  | .cmp128 ra rb => s.srcMarked ra && s.srcMarked rb
  | .mul64 _ ra rb => s.srcLoMarked ra && s.srcLoMarked rb
  | .absorb _ imm => s.bufMarkedBelow (2 * imm.toNat)
  | .combine _ ra rb rc => s.srcMarked ra && s.srcMarked rb && s.srcMarked rc
  | .finalize _ ra _ => s.srcMarked ra

theorem readsMarked_iff (s : State) (i : Instr) : s.readsMarked i = true ↔ ReadsWritten s i := by
  cases i <;>
    simp only [State.readsMarked, ReadsWritten, Bool.and_eq_true, srcMarked_iff, srcLoMarked_iff, bufMarkedBelow_iff,
      and_assoc]

/-- A well-formed command with a destination notes its reads and writes the destination, and that is all (R80, R155). -/
theorem exec_of_destination {i : Instr} {rd : WReg} (hw : i.wellFormed = true) (hd : destination i = some rd)
    (s : State) : ∃ v, exec i s = .next ((s.noteRead (s.readsMarked i)).setWide rd v) := by
  cases i with
  | cmp128 ra rb => cases hd
  | absorb rd' imm => cases hd; exact ⟨_, if_pos hw⟩
  | finalize rd' ra imm => cases hd; exact ⟨_, if_pos hw⟩
  | _ => cases hd; exact ⟨_, rfl⟩

/-- CMP128 notes its reads and writes STATUS.CMP, and that is all (R87). -/
theorem exec_cmp128 (ra rb : Src) (s : State) :
    exec (.cmp128 ra rb) s
      = .next ((s.noteRead (s.readsMarked (.cmp128 ra rb))).setCmp (cmp128 (s.src ra) (s.src rb))) := rfl

/-- The fault record of a well-formed command is that of its reads (R23, R160). -/
theorem exec_modelFault {i : Instr} (hw : i.wellFormed = true) (s : State) :
    ∃ t, exec i s = .next t ∧ t.modelFault = (s.noteRead (s.readsMarked i)).modelFault := by
  cases hd : destination i with
  | some rd =>
    obtain ⟨v, hv⟩ := exec_of_destination hw hd s
    exact ⟨_, hv, rfl⟩
  | none =>
    cases i with
    | cmp128 ra rb => exact ⟨_, exec_cmp128 ra rb s, rfl⟩
    | _ => cases hd

/-- The decoder rejects with an error code, never with NO_ERROR (R152). -/
theorem decodeCmd_error_ne_noError {v : Word} {code : ErrCode} (h : decodeCmd v = .error code) : code ≠ .noError := by
  rintro rfl
  unfold decodeCmd at h
  repeat' split at h
  all_goals cases h

/-! ## What a port read finds -/

theorem portContents_of_holds {s : State} {off : Offset} {v : Word} (h : PortHolds s off v) :
    s.portContents off = some (v, true) := by
  unfold State.portContents
  rcases h with ⟨k, hk, ho, hv⟩ | ⟨i, ho, hm, rfl⟩ | ⟨i, ho, hm, rfl⟩ | ⟨ho, rfl⟩ | ⟨ho, rfl⟩ | ⟨ho, rfl⟩
  · simp [targetOf_buf hk ho, State.bufWord, State.bufMarked, hv]
  · simp [targetOf_lo ho, hm]
  · simp [targetOf_hi ho, hm]
  · obtain rfl : off = 0x100#9 := offset_eq_of_toNat ho
    rw [targetOf_cmd]
  · obtain rfl : off = 0x108#9 := offset_eq_of_toNat ho
    rw [targetOf_status]
  · obtain rfl : off = 0x110#9 := offset_eq_of_toNat ho
    rw [targetOf_ctrl]

theorem portContents_of_unwritten {s : State} {off : Offset} (h : PortUnwritten s off) :
    ∃ v, s.portContents off = some (v, false) := by
  unfold State.portContents
  rcases h with ⟨k, hk, ho, hv⟩ | ⟨i, ho, hm⟩ | ⟨i, ho, hm⟩
  · simp [targetOf_buf hk ho, State.bufMarked, hv]
  · simp [targetOf_lo ho, hm]
  · simp [targetOf_hi ho, hm]

theorem portContents_of_bad {off : Offset} (h : BadOffset off) (s : State) : s.portContents off = none := by
  rw [State.portContents, targetOf_bad h]

theorem readPort_of_contents {s : State} {off : Offset} {v : Word} {marked : Bool}
    (h : s.portContents off = some (v, marked)) : s.readPort off = s.respond off v marked := by
  rw [State.readPort, h]

theorem discardPort_of_contents {s : State} {off : Offset} {v : Word} {marked : Bool}
    (h : s.portContents off = some (v, marked)) : s.discardPort off = s.noteRead marked := by
  rw [State.discardPort, h]

theorem discardPort_of_bad {s : State} {off : Offset} (h : s.portContents off = none) :
    s.discardPort off = s.raise .badAddr := by
  rw [State.discardPort, h]

/-! ## Where a port write goes -/

theorem writePort_lo (s : State) (i : WReg) (v : Word) : s.writePort (loOffset i) v = s.setLo i v := by
  rw [State.writePort, targetOf_lo (i := i) (by simp [loOffset]; omega)]

theorem writePort_hi (s : State) (i : WReg) (v : Word) : s.writePort (hiOffset i) v = s.setHi i v := by
  rw [State.writePort, targetOf_hi (i := i) (by simp [hiOffset]; omega)]

theorem writePort_cmd (s : State) (v : Word) : s.writePort cmdOffset v = s.issue v := rfl

theorem writePort_ctrl (s : State) (v : Word) : s.writePort ctrlOffset v = s.writeCtrl v := rfl

end Sys2Proof.Machine
end

section
/-! PROOFS. The state invariant: every operation, every access and every command keeps it, so every step does (O40). -/

namespace Sys2Proof.Machine

namespace State.Inv

variable {s t : State}

/-- The invariant reads six fields and asks of the fault record only that it be kept. -/
theorem of_fields (h : s.Inv) (buf : t.buf = s.buf := by simp) (err : t.err = s.err := by simp)
    (errCode : t.errCode = s.errCode := by simp) (inflight : t.inflight = s.inflight := by simp)
    (cmd : t.cmd = s.cmd := by simp) (responses : t.responses = s.responses := by simp)
    (fault : s.modelFault.isSome → t.modelFault.isSome := by simp) : t.Inv where
  bufWf := buf ▸ h.bufWf
  bufWhole := buf ▸ h.bufWhole
  errCode := by rw [err, errCode]; exact h.errCode
  inflightErr := by rw [inflight, err]; exact h.inflightErr
  inflightCmd := by rw [inflight, cmd]; exact h.inflightCmd
  faultRecorded := by rw [responses]; exact fun r hr hf => fault (h.faultRecorded r hr hf)

/-! ### Operations -/

theorem withPending (h : s.Inv) (rest : List Access) : { s with pending := rest }.Inv := h.of_fields

theorem setWide (h : s.Inv) (i : WReg) (v : Wide) : (s.setWide i v).Inv := h.of_fields

theorem setLo (h : s.Inv) (i : WReg) (v : Word) : (s.setLo i v).Inv := h.of_fields

theorem setHi (h : s.Inv) (i : WReg) (v : Word) : (s.setHi i v).Inv := h.of_fields

theorem setCmp (h : s.Inv) (r : CmpResult) : (s.setCmp r).Inv := h.of_fields

theorem recordFault (h : s.Inv) (f : Fault) : (s.recordFault f).Inv := h.of_fields

theorem noteRead (h : s.Inv) (marked : Bool) : (s.noteRead marked).Inv := by
  cases marked
  · exact h.recordFault _
  · exact h

theorem setBufWord (h : s.Inv) {k : Nat} (hk : k < 16) (v : Word) : (s.setBufWord k v).Inv :=
  { h with bufWf := writeWord_wf h.bufWf hk v, bufWhole := writeWord_wholeWords h.bufWhole k v }

theorem clearErr (h : s.Inv) : s.clearErr.Inv :=
  { h with errCode := by simp, inflightErr := fun _ => rfl }

theorem softReset (h : s.Inv) : s.softReset.Inv where
  bufWf := wf_nil
  bufWhole := wholeWords_nil
  errCode := by simp
  inflightErr := fun _ => rfl
  inflightCmd := fun _ hc => nomatch hc
  faultRecorded := h.faultRecorded

/-- With nothing in flight an error may be recorded (R151). -/
theorem raise (h : s.Inv) (hidle : s.inflight = none) {code : ErrCode} (hcode : code ≠ .noError) :
    (s.raise code).Inv := by
  unfold State.raise
  split
  · exact h
  · exact { h with errCode := by simp [hcode], inflightErr := by simp [hidle] }

/-- A CMD write puts a command in flight only with ERR = 0, and shows it in the readback (R28, R153). -/
theorem issue (h : s.Inv) (hidle : s.inflight = none) (v : Word) : (s.issue v).Inv := by
  unfold State.issue
  split
  · exact { h with inflightCmd := by simp [hidle] }
  · next herr =>
    exact { h with
      inflightErr := fun _ => Bool.eq_false_iff.2 herr
      inflightCmd := by rintro c ⟨⟩; rfl }

/-- A response may be added whose fault, if any, is recorded. -/
theorem addResponse (h : s.Inv) {r : Response} (hr : r.fault.isSome → s.modelFault.isSome) :
    { s with responses := r :: s.responses }.Inv :=
  { h with faultRecorded := List.forall_mem_cons.2 ⟨hr, h.faultRecorded⟩ }

theorem respond (h : s.Inv) (off : Offset) (v : Word) (marked : Bool) : (s.respond off v marked).Inv := by
  have := (h.noteRead marked).addResponse (r := ⟨off, v, if marked then none else some .unwrittenRead⟩)
    (by cases marked <;> simp)
  rwa [noteRead_responses] at this

theorem respondBad (h : s.Inv) (hidle : s.inflight = none) (off : Offset) : (s.respondBad off).Inv := by
  have := ((h.raise hidle (code := .badAddr) (by decide)).recordFault .errValueRead).addResponse
    (r := ⟨off, 0#64, some .errValueRead⟩) (by simp)
  rwa [recordFault_responses, raise_responses] at this

/-! ### Accesses, commands and steps -/

theorem writeCtrl (h : s.Inv) (hidle : s.inflight = none) (v : Word) : (s.writeCtrl v).Inv := by
  rcases writeCtrl_cases s v with ⟨-, e⟩ | ⟨-, e⟩ | ⟨-, e⟩ | ⟨-, e⟩ <;> rw [e]
  · exact h.raise hidle (by decide)
  · exact h.softReset
  · exact h.clearErr
  · exact h

theorem writePort (h : s.Inv) (hidle : s.inflight = none) (off : Offset) (v : Word) : (s.writePort off v).Inv := by
  rcases writePort_cases s off v with ⟨k, -, e⟩ | ⟨i, -, e⟩ | ⟨i, -, e⟩ | ⟨-, e⟩ | ⟨-, e⟩ | ⟨-, e⟩ <;> rw [e]
  · exact h.setBufWord k.isLt v
  · exact h.setLo i v
  · exact h.setHi i v
  · exact h.issue hidle v
  · exact h.writeCtrl hidle v
  · exact h.raise hidle (by decide)

/-- With nothing in flight every access keeps the invariant. -/
theorem perform (h : s.Inv) (hidle : s.inflight = none) (a : Access) : (s.perform a).Inv := by
  cases a with
  | read off =>
    rcases readPort_cases s off with ⟨v, marked, e⟩ | e <;> rw [State.perform, e]
    · exact h.respond off v marked
    · exact h.respondBad hidle off
  | discard off =>
    rcases discardPort_cases s off with ⟨marked, e⟩ | e <;> rw [State.perform, e]
    · exact h.noteRead marked
    · exact h.raise hidle (by decide)
  | write off v => exact h.writePort hidle off v

/-- With nothing in flight every command keeps the invariant. -/
theorem exec {i : Instr} (h : s.Inv) (hidle : s.inflight = none) (he : Machine.exec i s = .next t) : t.Inv := by
  rcases exec_cases he with ⟨rd, v, marked, rfl⟩ | ⟨_, _, r, marked, _, rfl⟩ | ⟨_, rfl⟩
  · exact (h.noteRead marked).setWide rd v
  · exact (h.noteRead marked).setCmp r
  · exact h.raise hidle (by decide)

/-- Taking the command out of flight keeps the invariant. -/
theorem land (h : s.Inv) : { s with inflight := none }.Inv :=
  { h with inflightErr := nofun, inflightCmd := nofun }

/-- A STATUS read in flight keeps the invariant: the command stays the same, and the read's response has no fault. -/
theorem poll (h : s.Inv) {c : InFlight} (hc : s.inflight = some c) (hp : s.pollIsNext c = true) : (s.poll c).Inv := by
  obtain ⟨rest, rs, e, hrs⟩ := poll_frame hp
  rw [e]
  refine { h with inflightErr := fun _ => h.inflightErr (by simp [hc]), inflightCmd := ?_, faultRecorded := ?_ }
  · rintro _ ⟨⟩
    exact h.inflightCmd c hc
  · intro r hr hf
    rcases hrs r hr with hold | hnone
    · exact h.faultRecorded r hold hf
    · simp [hnone] at hf

theorem step (h : s.Inv) (hs : Machine.step s = .next t) : t.Inv := by
  rcases step_cases hs with ⟨c, hc, hp, rfl⟩ | ⟨c, i, _, _, he⟩ | ⟨c, code, _, hd, rfl⟩ | ⟨_, _, rfl⟩ |
    ⟨a, rest, hidle, _, rfl⟩
  · exact h.poll hc hp
  · exact h.land.exec rfl he
  · exact h.land.raise rfl (decodeCmd_error_ne_noError hd)
  · exact h
  · exact (h.withPending rest).perform hidle a

end State.Inv

/-- Settles O40: each event a step can be keeps the invariant. -/
theorem everyStepKeepsStateInvariant : Obligations.EveryStepKeepsStateInvariant := fun _ _ h hs => h.step hs

end Sys2Proof.Machine
end

section
/-! PROOFS. What a step can change of the constant store, BUF, STATUS.CMP and the error record, said once, and the rules
that follow from it (O41 to O44). -/

namespace Sys2Proof.Machine

open Sys2Proof.Reference

/-- `t` has the constant store, BUF and STATUS.CMP of `s`, and the error of `s` where one is recorded. -/
structure State.Keeps (s t : State) : Prop where
  consts : t.consts = s.consts
  buf : t.buf = s.buf
  cmp : t.cmp = s.cmp
  err : s.err = true → t.err = true ∧ t.errCode = s.errCode

namespace State.Keeps

variable {s t u : State}

/-- States that agree on the five fields, as those of a register or port update do. -/
theorem of_fields (consts : t.consts = s.consts := by simp) (buf : t.buf = s.buf := by simp)
    (cmp : t.cmp = s.cmp := by simp) (err : t.err = s.err := by simp) (errCode : t.errCode = s.errCode := by simp) :
    s.Keeps t :=
  ⟨consts, buf, cmp, fun h => ⟨err.trans h, errCode⟩⟩

theorem trans (h : s.Keeps t) (h' : t.Keeps u) : s.Keeps u where
  consts := h'.consts.trans h.consts
  buf := h'.buf.trans h.buf
  cmp := h'.cmp.trans h.cmp
  err hs := by
    obtain ⟨ht, hcode⟩ := h.err hs
    exact (h'.err ht).imp id fun hcode' => hcode'.trans hcode

theorem raise (s : State) (code : ErrCode) : s.Keeps (s.raise code) :=
  ⟨by simp, by simp, by simp, fun h => by simp [h]⟩

theorem respondBad (s : State) (off : Offset) : s.Keeps (s.respondBad off) :=
  ⟨by simp, by simp, by simp, fun h => by simp [h]⟩

end State.Keeps

/-- What an access can do: keep the constants, BUF, CMP and a recorded error, write a BUF word, reset the block, or clear
the error (R29, R46, R47). -/
theorem perform_changes (s : State) (a : Access) :
    s.Keeps (s.perform a) ∨
    (∃ (k : Fin 16) (v : Word), a = .write (bufOffset k.val) v ∧ s.perform a = s.setBufWord k.val v) ∨
    (∃ v, a = .write ctrlOffset v ∧ (v = 1#64 ∨ v = 3#64) ∧ s.perform a = s.softReset) ∨
    (a = .write ctrlOffset 2#64 ∧ s.perform a = s.clearErr) := by
  cases a with
  | read off =>
    rcases readPort_cases s off with ⟨v, marked, e⟩ | e <;> rw [State.perform, e]
    · exact .inl .of_fields
    · exact .inl (.respondBad s off)
  | discard off =>
    rcases discardPort_cases s off with ⟨marked, e⟩ | e <;> rw [State.perform, e]
    · exact .inl .of_fields
    · exact .inl (.raise s _)
  | write off v =>
    rw [State.perform]
    rcases writePort_cases s off v with ⟨k, rfl, e⟩ | ⟨i, rfl, e⟩ | ⟨i, rfl, e⟩ | ⟨rfl, e⟩ | ⟨rfl, e⟩ | ⟨_, e⟩ <;> rw [e]
    · exact .inr (.inl ⟨k, v, rfl, rfl⟩)
    · exact .inl .of_fields
    · exact .inl .of_fields
    · exact .inl .of_fields
    · rcases writeCtrl_cases s v with ⟨_, e⟩ | ⟨hv, e⟩ | ⟨rfl, e⟩ | ⟨_, e⟩ <;> rw [e]
      · exact .inl (.raise s _)
      · exact .inr (.inr (.inl ⟨v, rfl, hv, rfl⟩))
      · exact .inr (.inr (.inr ⟨rfl, rfl⟩))
      · exact .inl .of_fields
    · exact .inl (.raise s _)

/-- What a step can do: keep the constants, BUF, CMP and a recorded error, complete a CMP128, write a BUF word, reset the
block, or clear the error. -/
theorem step_changes {s t : State} (h : step s = .next t) :
    s.Keeps t ∨
    (∃ c ra rb marked r, s.inflight = some c ∧ decodeCmd c.word = .ok (.cmp128 ra rb) ∧
      t = ({ s with inflight := none }.noteRead marked).setCmp r) ∨
    (∃ (k : Fin 16) (v : Word) (rest : List Access), s.inflight = none ∧
      s.pending.head? = some (.write (bufOffset k.val) v) ∧ t = { s with pending := rest }.setBufWord k.val v) ∨
    (∃ v rest, CtrlWriteNext s v ∧ (v = 1#64 ∨ v = 3#64) ∧ t = { s with pending := rest }.softReset) ∨
    (∃ rest, CtrlWriteNext s 2#64 ∧ t = { s with pending := rest }.clearErr) := by
  rcases step_cases h with ⟨c, _, hp, rfl⟩ | ⟨c, i, hc, hd, he⟩ | ⟨c, code, _, _, rfl⟩ | ⟨_, _, rfl⟩ |
    ⟨a, rest, hidle, hp, rfl⟩
  · obtain ⟨rest, rs, e, _⟩ := poll_frame hp
    rw [e]
    exact .inl .of_fields
  · rcases exec_cases he with ⟨rd, v, marked, rfl⟩ | ⟨ra, rb, r, marked, rfl, rfl⟩ | ⟨_, rfl⟩
    · exact .inl .of_fields
    · exact .inr (.inl ⟨c, ra, rb, marked, r, hc, hd, rfl⟩)
    · exact .inl (.trans .of_fields (.raise { s with inflight := none } .badImm))
  · exact .inl (.trans .of_fields (.raise { s with inflight := none } code))
  · exact .inl .of_fields
  · rcases perform_changes { s with pending := rest } a with hk | ⟨k, v, rfl, e⟩ | ⟨v, rfl, hv, e⟩ | ⟨rfl, e⟩
    · exact .inl (.trans .of_fields hk)
    · exact .inr (.inr (.inl ⟨k, v, rest, hidle, by simp [hp], e⟩))
    · exact .inr (.inr (.inr (.inl ⟨v, rest, ⟨hidle, by simp [hp, ctrlOffset]⟩, hv, e⟩)))
    · exact .inr (.inr (.inr (.inr ⟨rest, ⟨hidle, by simp [hp, ctrlOffset]⟩, e⟩)))

/-- Settles O41: none of the five things a step can do writes the constants. -/
theorem constantStoreIsNeverWritten : Obligations.ConstantStoreIsNeverWritten := by
  intro s t hs
  rcases step_changes hs with hk | ⟨c, ra, rb, marked, r, _, _, rfl⟩ | ⟨k, v, rest, _, _, rfl⟩ | ⟨v, rest, _, _, rfl⟩ |
    ⟨rest, _, rfl⟩
  · exact hk.consts
  · simp
  · rfl
  · rfl
  · rfl

/-- Settles O42: of the five things a step can do, two write STATUS.CMP. -/
theorem onlyCmp128AndResetWriteCmp : Obligations.OnlyCmp128AndResetWriteCmp := by
  intro s t hs hne
  rcases step_changes hs with hk | ⟨c, ra, rb, _, _, hc, hd, _⟩ | ⟨k, v, rest, _, _, rfl⟩ | ⟨v, rest, hnext, hv, _⟩ |
    ⟨rest, _, rfl⟩
  · exact absurd hk.cmp hne
  · exact .inl ⟨c, ra, rb, hc, hd⟩
  · exact absurd rfl hne
  · exact .inr ⟨v, hnext, hv⟩
  · exact absurd rfl hne

/-- A write of a BUF word leaves every byte outside the word alone (R46). -/
theorem bufByte_setBufWord_of_outside (s : State) {k j : Nat} (v : Word) (hj : ¬ (8 * k ≤ j ∧ j < 8 * k + 8)) :
    (s.setBufWord k v).bufByte j = s.bufByte j := by
  rw [State.bufByte, setBufWord_buf, readByte_writeWord, if_neg hj, State.bufByte]

/-- Settles O43: of the five things a step can do, two write BUF, and a host write touches its own word only. -/
theorem onlyHostWritesBuf : Obligations.OnlyHostWritesBuf := by
  intro s t j hs hne
  rcases step_changes hs with hk | ⟨c, ra, rb, marked, r, _, _, rfl⟩ | ⟨k, v, rest, hidle, hhead, rfl⟩ |
    ⟨v, rest, hnext, hv, _⟩ | ⟨rest, _, rfl⟩
  · exact absurd (congrArg (readByte · j) hk.buf) hne
  · exact absurd (by simp [State.bufByte]) hne
  · have hin : 8 * k.val ≤ j ∧ j < 8 * k.val + 8 := by
      by_contra hout
      exact hne (bufByte_setBufWord_of_outside _ v hout)
    exact .inl ⟨k.val, v, hidle, hhead, k.isLt, hin⟩
  · exact .inr ⟨v, hnext, hv⟩
  · exact absurd rfl hne

/-- Settles O44: of the five things a step can do, the two that clear the error are CTRL writes. -/
theorem errorIsStickyUntilCleared : Obligations.ErrorIsStickyUntilCleared := by
  intro s t herr hs
  rcases step_changes hs with hk | ⟨c, ra, rb, marked, r, _, _, rfl⟩ | ⟨k, v, rest, _, _, rfl⟩ |
    ⟨v, rest, hnext, hv, rfl⟩ | ⟨rest, hnext, rfl⟩
  · exact .inl (hk.err herr)
  · exact .inl (by simpa using herr)
  · exact .inl ⟨herr, rfl⟩
  · exact .inr ⟨rfl, v, hnext, by rcases hv with rfl | rfl <;> decide⟩
  · exact .inr ⟨rfl, 2#64, hnext, by decide⟩

end Sys2Proof.Machine
end

section
/-! PROOFS. The commands: what they write, leave unchanged and record (O15, O27, O29). -/

namespace Sys2Proof.Machine

open Sys2Proof.Reference

/-- Settles O15: CMP is the order of the two numbers, and the frame is that of a note of the reads. -/
theorem cmp128ComparesUnsigned : Obligations.Cmp128ComparesUnsigned := by
  intro ra rb s
  refine ⟨_, exec_cmp128 ra rb s, ?_, ?_⟩
  · exact cmp128_value (s.src ra) (s.src rb)
  · apply State.ext_fields <;> simp

/-- Settles O27: such a command is a note of its reads and one write of its destination. -/
theorem registerCommandsFrame : Obligations.RegisterCommandsFrame := by
  intro i rd s hw hd
  obtain ⟨v, hv⟩ := exec_of_destination hw hd s
  have hfault : (s.noteRead (s.readsMarked i)).modelFault = s.modelFault ∨
      (s.noteRead (s.readsMarked i)).modelFault = some .unwrittenRead := by
    rw [noteRead_modelFault]
    cases s.readsMarked i <;> cases s.modelFault <;> simp
  refine ⟨_, hv, fun j hj => by simp [hj.symm], ?_⟩
  simpa [State.bufByte] using hfault

/-- Settles O29: the fault record of a command is that of its reads. -/
theorem unwrittenSourceIsRecorded : Obligations.UnwrittenSourceIsRecorded := by
  intro i s hw
  obtain ⟨t, ht, hfault⟩ := exec_modelFault hw s
  refine ⟨t, ht, fun hread => ?_, fun hread => ?_⟩
  · rw [hfault, (readsMarked_iff s i).2 hread, noteRead_true]
  · rw [← readsMarked_iff, Bool.not_eq_true] at hread
    rw [hfault, hread, noteRead_modelFault, if_neg Bool.false_ne_true]

end Sys2Proof.Machine
end

section
/-! PROOFS. The port: reads of something unwritten, discarded reads, limb writes, CMD and CTRL writes, and the STATUS word
(O31, O34 to O37, O48). -/

namespace Sys2Proof.Machine

open Sys2Proof.Reference

/-- Settles O31: the read finds an unmarked value, and its response carries the fault. -/
theorem unwrittenPortReadIsRecorded : Obligations.UnwrittenPortReadIsRecorded := by
  intro s off rest hidle hp hun
  obtain ⟨v, hv⟩ := portContents_of_unwritten (s := { s with pending := rest }) hun
  refine ⟨v, ?_⟩
  rw [step_access hidle hp, State.perform, readPort_of_contents hv, State.respond, noteRead_false, recordFault_eq]
  rfl

/-- Settles O48: a discarded read is a note of what it finds, or the error of finding nothing. -/
theorem discardedReadReturnsNothing : Obligations.DiscardedReadReturnsNothing := by
  intro s off rest hidle hp
  rw [step_access hidle hp, State.perform]
  refine ⟨fun ⟨v, hholds⟩ => ?_, fun hun => ?_, fun hbad => ?_⟩
  · have hv := portContents_of_holds (s := { s with pending := rest }) hholds
    rw [discardPort_of_contents hv, noteRead_true]
  · obtain ⟨v, hv⟩ := portContents_of_unwritten (s := { s with pending := rest }) hun
    rw [discardPort_of_contents hv, noteRead_false, recordFault_eq]
  · rw [discardPort_of_bad (portContents_of_bad hbad _), raise_eq]

/-- Settles O34: the two limb writes are `setLo` and `setHi`. -/
theorem limbWriteLeavesOtherLimb : Obligations.LimbWriteLeavesOtherLimb := by
  intro s i v rest hidle
  refine ⟨fun hp => ?_, fun hp => ?_⟩
  · refine ⟨{ s with pending := rest }.setLo i v, ?_, (wide_setLo ..).trans (if_pos rfl),
      (marks_setLo ..).trans (if_pos rfl), fun j hj => ⟨?_, ?_⟩, rfl⟩
    · exact (step_access hidle hp).trans (congrArg _ (writePort_lo _ i v))
    · exact (wide_setLo ..).trans (if_neg hj.symm)
    · exact (marks_setLo ..).trans (if_neg hj.symm)
  · refine ⟨{ s with pending := rest }.setHi i v, ?_, (wide_setHi ..).trans (if_pos rfl),
      (marks_setHi ..).trans (if_pos rfl), fun j hj => ⟨?_, ?_⟩, rfl⟩
    · exact (step_access hidle hp).trans (congrArg _ (writePort_hi _ i v))
    · exact (wide_setHi ..).trans (if_neg hj.symm)
    · exact (marks_setHi ..).trans (if_neg hj.symm)

/-- Settles O36: the four cases of the value of a CTRL write. -/
theorem ctrlWriteActions : Obligations.CtrlWriteActions := by
  intro s v rest hidle hp
  refine ⟨_, step_access hidle hp, ?_⟩
  rw [State.perform, show (0x110#9 : Offset) = ctrlOffset from rfl, writePort_ctrl]
  rcases writeCtrl_cases { s with pending := rest } v with ⟨hv, e⟩ | ⟨hv, e⟩ | ⟨rfl, e⟩ | ⟨rfl, e⟩ <;> rw [e]
  · refine ⟨fun _ => raise_eq _ _, ?_, ?_, ?_⟩
    · rintro rfl; simp at hv
    · rintro rfl; simp at hv
    · rintro (rfl | rfl) <;> simp at hv
  · refine ⟨?_, ?_, ?_, fun _ => ?_⟩
    · rcases hv with rfl | rfl <;> simp
    · rcases hv with rfl | rfl <;> simp
    · rcases hv with rfl | rfl <;> simp
    · simp [State.bufByte]
  · exact ⟨by simp, by simp, fun _ => rfl, by simp⟩
  · exact ⟨by simp, fun _ => rfl, by simp, by simp⟩

theorem cmpBits_toNat (r : CmpResult) : (cmpBits r).toNat = orderNumber r := by cases r <;> rfl

theorem errCodeBits_toNat (code : ErrCode) : (errCodeBits code).toNat = errorNumber code := by cases code <;> rfl

/-- The number of two fields side by side. -/
theorem append_toNat {m n : Nat} (x : BitVec m) (y : BitVec n) : (x ++ y).toNat = 2 ^ n * x.toNat + y.toNat := by
  rw [BitVec.toNat_append, ← Nat.shiftLeft_add_eq_or_of_lt y.isLt, Nat.shiftLeft_eq, Nat.mul_comm]

/-- Settles O37: the word is its fields side by side, each a number of its own. -/
theorem statusWordLayout : Obligations.StatusWordLayout := by
  intro s
  simp only [State.statusWord, State.busy, append_toNat, cmpBits_toNat, errCodeBits_toNat]
  cases s.inflight.isSome <;> cases s.err <;> simp <;> omega

/-- Settles O35: the two cases of an issue. -/
theorem cmdWriteIssuesOrDrops : Obligations.CmdWriteIssuesOrDrops := by
  intro s v rest hidle hp
  rw [step_access hidle hp, State.perform, show (0x100#9 : Offset) = cmdOffset from rfl, writePort_cmd]
  refine ⟨fun herr => ?_, fun herr => ⟨Config.busyReads s.draws, s.draws + 1, ?_⟩⟩
  · rw [State.issue, if_pos herr]
  · rw [State.issue, if_neg (by simp [herr])]

end Sys2Proof.Machine
end

section
/-! PROOFS. The order of events: the completion of a command in flight, and an idle step (O6, O7, O12). -/

namespace Sys2Proof.Machine

open Sys2Proof.Reference

theorem complete_of_ok {v : Word} {i : Instr} (h : decodeCmd v = .ok i) (s : State) : complete v s = exec i s := by
  rw [complete, h]

theorem complete_of_error {v : Word} {code : ErrCode} (h : decodeCmd v = .error code) (s : State) :
    complete v s = .next (s.raise code) := by
  rw [complete, h]

/-- The table view of the decoder is the decoder on the CMD value of the table word (log 15). -/
theorem decodeCmd_fetchWord {nbits w : Nat} {i : Instr} (h : decodeTableWord nbits w = some i) :
    decodeCmd (fetchWord nbits w) = .ok i := by
  unfold decodeTableWord at h
  split at h
  · next i' hd => cases h; exact hd
  · cases h

/-- Settles O6: the step is the completion, by the outcome of the decoder. -/
theorem stepRunsDecodedCommand : Obligations.StepRunsDecodedCommand := by
  intro s c hc hpolls
  rw [step_complete hc (pollIsNext_eq_false hpolls)]
  exact ⟨fun i hd => complete_of_ok hd _, fun code hd => ⟨_, complete_of_error hd _, raise_eq _ _⟩⟩

/-- Settles O7: a loaded command has no STATUS read before its completion. -/
theorem fetchWordRunsNext : Obligations.FetchWordRunsNext := by
  intro s nbits w i hd
  have hc : (s.withFetchWord nbits w).inflight = some ⟨fetchWord nbits w, 0⟩ := rfl
  rw [step_complete hc (pollIsNext_eq_false (.inl rfl)), complete_of_ok (decodeCmd_fetchWord hd)]
  rfl

/-- Settles O12: an idle step performs the next access, and there is none. -/
theorem idleBlockStaysAsItIs : Obligations.IdleBlockStaysAsItIs := by
  intro s hidle hp
  simp only [step, hidle, stepIdle, hp]

end Sys2Proof.Machine
end

section
/-! PROOFS. The order of events: what completes a command in flight, what a STATUS read sees before it, and that it
completes (O9 to O11). -/

namespace Sys2Proof.Machine

open Sys2Proof.Reference

/-- A command leaves the command in flight, the waiting accesses and the responses alone (R80, R155). -/
theorem exec_hostSide {i : Instr} {s t : State} (h : exec i s = .next t) :
    t.inflight = s.inflight ∧ t.pending = s.pending ∧ t.responses = s.responses := by
  rcases exec_cases h with ⟨rd, v, marked, rfl⟩ | ⟨_, _, r, marked, _, rfl⟩ | ⟨_, rfl⟩ <;> simp

/-- So does a completion, whether the command executes or is rejected (R66, R155). -/
theorem complete_hostSide {v : Word} {s t : State} (h : complete v s = .next t) :
    t.inflight = s.inflight ∧ t.pending = s.pending ∧ t.responses = s.responses := by
  rcases complete_cases h with ⟨i, _, he⟩ | ⟨code, _, rfl⟩
  · exact exec_hostSide he
  · simp

/-- Where no STATUS read comes first, a step takes the command out of flight and leaves the host's side of the port
alone (R48). -/
theorem step_lands {s : State} {c : InFlight} (hc : s.inflight = some c) (hp : s.pollIsNext c = false) :
    ∃ t, step s = .next t ∧ t.inflight = none ∧ t.pending = s.pending ∧ t.responses = s.responses := by
  obtain ⟨t, ht⟩ := complete_answers c.word { s with inflight := none }
  exact ⟨t, (step_complete hc hp).trans ht, complete_hostSide ht⟩

/-- Settles O9: with no STATUS read next, the completion is. -/
theorem accessesWaitForCompletion : Obligations.AccessesWaitForCompletion :=
  fun _ _ hc hnext => step_lands hc (pollIsNext_eq_false (.inr hnext))

/-- Where a STATUS read comes first, a step is that read (R49). -/
theorem step_poll {s : State} {c : InFlight} (hc : s.inflight = some c) (hp : s.pollIsNext c = true) :
    step s = .next (s.poll c) := by
  simp [step, hc, stepInFlight, hp]

/-- A STATUS read in flight, which the draw allows, is performed with one such read fewer to come (R49; log 6). -/
theorem step_statusRead {s : State} {c : InFlight} {a : Access} {rest : List Access} (hc : s.inflight = some c)
    (hpolls : 0 < c.polls) (hp : s.pending = a :: rest) (ha : a.isStatusRead = true) :
    step s = .next ({ s with pending := rest, inflight := some ⟨c.word, c.polls - 1⟩ }.perform a) := by
  have hnext : s.pollIsNext c = true := by simp [State.pollIsNext, hp, ha, hpolls.ne']
  rw [step_poll hc hnext, State.poll, hp]

theorem perform_statusRead (s : State) :
    s.perform (.read statusOffset) = s.respond statusOffset s.statusWord true :=
  readPort_of_contents (portContents_status s)

theorem perform_statusDiscard (s : State) : s.perform (.discard statusOffset) = s :=
  discardPort_of_contents (portContents_status s)

/-- Above bit 0 the STATUS word does not depend on the command in flight (R26). -/
theorem statusWord_inflight_of_pos (s : State) (c : Option InFlight) {n : Nat} (hn : 0 < n) :
    ({ s with inflight := c }.statusWord).getLsbD n = s.statusWord.getLsbD n := by
  simp only [State.statusWord, BitVec.getLsbD_append, if_neg (show ¬ n < 1 by omega)]

/-- Settles O10: the read is performed in the state with the command in flight, whose STATUS word shows BUSY. -/
theorem statusReadInFlightShowsBusy : Obligations.StatusReadInFlightShowsBusy := by
  intro s c rest hc hpolls
  refine ⟨fun hp => ?_, fun hp => ?_⟩
  · refine ⟨{ s with inflight := some ⟨c.word, c.polls - 1⟩ }.statusWord, statusWord_busy _, fun n hn => ?_, ?_⟩
    · exact (statusWord_inflight_of_pos s _ hn).trans (statusWord_inflight_of_pos s none hn).symm
    · exact (step_statusRead hc hpolls hp rfl).trans (congrArg _ (perform_statusRead _))
  · exact (step_statusRead hc hpolls hp rfl).trans (congrArg _ (perform_statusDiscard _))

/-- Settles O11, by induction on the draw: a step completes the command, or is a STATUS read that uses up one of the
draw's. -/
theorem commandInFlightCompletes : Obligations.CommandInFlightCompletes := by
  intro s c hc
  obtain ⟨word, polls⟩ := c
  induction polls generalizing s with
  | zero =>
    obtain ⟨t, ht, hland, _⟩ := step_lands hc (pollIsNext_eq_false (.inl rfl))
    exact ⟨1, t, le_rfl, run_step ht 0, hland⟩
  | succ polls ih =>
    cases hp : s.pollIsNext ⟨word, polls + 1⟩ with
    | false =>
      obtain ⟨t, ht, hland, _⟩ := step_lands hc hp
      exact ⟨1, t, by simp, run_step ht 0, hland⟩
    | true =>
      obtain ⟨rest, rs, e, _⟩ := poll_frame hp
      obtain ⟨n, t, hn, ht, hland⟩ := ih (s.poll ⟨word, polls + 1⟩) (by rw [e]; rfl)
      exact ⟨n + 1, t, Nat.succ_le_succ hn, (run_step (step_poll hc hp) n).trans ht, hland⟩

end Sys2Proof.Machine
end

section
/-! PROOFS. The port: reads of a written location, misaligned and unmapped accesses, and writes of BUF (O30, O32, O33). -/

namespace Sys2Proof.Machine

open Sys2Proof.Reference

theorem readPort_of_bad {off : Offset} (h : BadOffset off) (s : State) : s.readPort off = s.respondBad off := by
  rw [State.readPort, portContents_of_bad h]

/-- An erroneous read whose value the host takes, as one update (R43, R44, R151, R160; log 11). -/
theorem respondBad_eq (s : State) (off : Offset) :
    s.respondBad off = { s with
      err := true, errCode := if s.err then s.errCode else .badAddr
      responses := ⟨off, 0#64, some .errValueRead⟩ :: s.responses
      modelFault := s.modelFault.or (some .errValueRead) } := by
  apply State.ext_fields <;> simp

/-- A write to a misaligned or unmapped offset, or to STATUS, only records BAD_ADDR (R43 to R45). -/
theorem writePort_of_rejected {off : Offset} (h : BadOffset off ∨ off = statusOffset) (s : State) (v : Word) :
    s.writePort off v = s.raise .badAddr := by
  rcases h with hbad | rfl
  · rw [State.writePort, targetOf_bad hbad]
  · rfl

theorem writePort_buf {k : Nat} (hk : k < 16) (s : State) (v : Word) :
    s.writePort (bufOffset k) v = s.setBufWord k v := by
  rw [State.writePort, targetOf_buf hk (by simp [bufOffset]; omega)]

/-- A write of a BUF word puts byte `n` of the value at byte 8k+n (R41, R46). -/
theorem bufByte_setBufWord_of_lt (s : State) (k : Nat) (v : Word) {n : Nat} (hn : n < 8) :
    (s.setBufWord k v).bufByte (8 * k + n) = some (byteOf v n) := by
  rw [State.bufByte, setBufWord_buf, readByte_writeWord, if_pos (by omega), Nat.add_sub_cancel_left]

/-- Settles O30: the read finds a marked value and answers it. -/
theorem portReadReturnsContents : Obligations.PortReadReturnsContents := by
  intro s off rest v hidle hp hholds
  have hv := portContents_of_holds (s := { s with pending := rest }) hholds
  rw [step_access hidle hp, State.perform, readPort_of_contents hv]
  rfl

/-- Settles O32: the read is `respondBad`, the write the recording of BAD_ADDR. -/
theorem badAccessRecordsBadAddr : Obligations.BadAccessRecordsBadAddr := by
  intro s off rest hidle
  refine ⟨fun hbad hp => ?_, fun v hrej hp => ?_⟩
  · rw [step_access hidle hp, State.perform, readPort_of_bad hbad, respondBad_eq]
  · rw [step_access hidle hp, State.perform, writePort_of_rejected hrej, raise_eq]

/-- Settles O33: the write is `setBufWord`, by the rules of the bytes of BUF. -/
theorem bufWriteReplacesOneWord : Obligations.BufWriteReplacesOneWord := by
  intro s k v rest hk hidle hp
  refine ⟨{ s with pending := rest }.setBufWord k v, ?_, fun n hn => ?_, fun j hj => ?_, ?_, rfl⟩
  · exact (step_access hidle hp).trans (congrArg _ (writePort_buf hk _ v))
  · exact bufByte_setBufWord_of_lt _ k v hn
  · exact bufByte_setBufWord_of_outside _ v hj
  · exact readWord_writeWord_same s.buf k v

end Sys2Proof.Machine
end

section
/-! PROOFS. A recorded model fault stays for the rest of the run (logs 2, 17), so a run after an erroneous read ends in no
state to trust (O49). -/

namespace Sys2Proof.Machine

open Sys2Proof.Reference

@[simp] theorem writeCtrl_modelFault (s : State) (v : Word) : (s.writeCtrl v).modelFault = s.modelFault := by
  rcases writeCtrl_cases s v with ⟨-, e⟩ | ⟨-, e⟩ | ⟨-, e⟩ | ⟨-, e⟩ <;> simp [e]

@[simp] theorem writePort_modelFault (s : State) (off : Offset) (v : Word) :
    (s.writePort off v).modelFault = s.modelFault := by
  rcases writePort_cases s off v with ⟨k, -, e⟩ | ⟨i, -, e⟩ | ⟨i, -, e⟩ | ⟨-, e⟩ | ⟨-, e⟩ | ⟨-, e⟩ <;> simp [e]

theorem noteRead_keeps_fault {s : State} {f : Fault} (h : s.modelFault = some f) (marked : Bool) :
    (s.noteRead marked).modelFault = some f := by
  cases marked <;> simp [h]

theorem perform_keeps_fault {s : State} {f : Fault} (h : s.modelFault = some f) (a : Access) :
    (s.perform a).modelFault = some f := by
  cases a with
  | read off =>
    rcases readPort_cases s off with ⟨v, marked, e⟩ | e <;> rw [State.perform, e]
    · exact noteRead_keeps_fault h marked
    · simp [h]
  | discard off =>
    rcases discardPort_cases s off with ⟨marked, e⟩ | e <;> rw [State.perform, e]
    · exact noteRead_keeps_fault h marked
    · simp [h]
  | write off v => exact (writePort_modelFault s off v).trans h

theorem exec_keeps_fault {i : Instr} {s t : State} {f : Fault} (h : s.modelFault = some f) (he : exec i s = .next t) :
    t.modelFault = some f := by
  rcases exec_cases he with ⟨rd, v, marked, rfl⟩ | ⟨_, _, r, marked, _, rfl⟩ | ⟨_, rfl⟩
  · exact noteRead_keeps_fault h marked
  · exact noteRead_keeps_fault h marked
  · exact (raise_modelFault s _).trans h

/-- No event takes a recorded fault back. -/
theorem step_keeps_fault {s t : State} {f : Fault} (h : s.modelFault = some f) (hs : step s = .next t) :
    t.modelFault = some f := by
  rcases step_cases hs with ⟨c, _, hp, rfl⟩ | ⟨c, i, _, _, he⟩ | ⟨c, code, _, _, rfl⟩ | ⟨_, _, rfl⟩ |
    ⟨a, rest, _, _, rfl⟩
  · obtain ⟨rest, rs, e, _⟩ := poll_frame hp
    rw [e]
    exact h
  · exact exec_keeps_fault (s := { s with inflight := none }) h he
  · exact (raise_modelFault _ code).trans h
  · exact h
  · exact perform_keeps_fault (s := { s with pending := rest }) h a

/-- A recorded fault is that of every later state of the run. -/
theorem run_keeps_fault {n : Nat} {s t : State} {f : Fault} (h : s.modelFault = some f)
    (hrun : Host.Core.run Sys2Proof.core n s = .next t) : t.modelFault = some f := by
  induction n generalizing s with
  | zero => cases hrun; exact h
  | succ n ih =>
    simp only [Host.Core.run] at hrun
    split at hrun
    · next s' hs => exact ih (step_keeps_fault h hs) hrun
    · cases hrun
    · cases hrun

/-- Settles O49: the read leaves a fault recorded, which stays, and a trusted end state has none. -/
theorem erroneousReadIsNeverTrusted : Obligations.ErroneousReadIsNeverTrusted := by
  rintro s t u off hidle hhead hbad hs ⟨n, hrun⟩ ⟨_, _, hnone⟩
  obtain ⟨rest, hp⟩ := List.head?_eq_some_iff.1 hhead
  rw [step_access hidle hp, State.perform, readPort_of_bad hbad] at hs
  cases hs
  obtain ⟨f, hf⟩ : ∃ f, (s.modelFault.or (some .errValueRead)) = some f := Option.isSome_iff_exists.1 (by simp)
  have hu := run_keeps_fault ((respondBad_modelFault { s with pending := rest } off).trans hf) hrun
  simp [hnone] at hu

end Sys2Proof.Machine
end

section
/-! PROOFS. Rules of the encoder and the decoder: the reserved bits, the selectors and the immediate of a CMD value as
fields, and what the decoder answers in each case, each said once (R60 to R66). -/

namespace Sys2Proof.Machine

open Sys2Proof.Reference
open Sys2Proof.Laws (opcodeFor)

/-! ## The words of the encoder -/

@[simp] theorem toNat_srcSelector (x : Src) : (srcSelector x).toNat = selector x := by
  cases x with
  | kr => rfl
  | w i => simp [srcSelector, selector]; omega

@[simp] theorem toNat_destSelector (d : WReg) : (destSelector d).toNat = d.val := by
  simp [destSelector]; omega

/-- A CMD value with CMD[63:32] = 0 is assembled from its own fields (R60, R61). -/
theorem setWidth_assemble_of_fields {v : Word} {o : Opcode} {rd ra rb rc : BitVec 4} {imm : BitVec 8}
    (hz : v.toNat / 2 ^ 32 = 0) (ho : opField v = opByte o) (hrd : rdField v = rd) (hra : raField v = ra)
    (hrb : rbField v = rb) (hrc : rcField v = rc) (himm : immField v = imm) :
    (assemble o rd ra rb rc imm).setWidth 64 = v := by
  subst hrd hra hrb hrc himm
  apply BitVec.eq_of_toNat_eq
  rw [BitVec.toNat_setWidth, toNat_assemble, ← ho, toNat_opField, toNat_rdField, toNat_raField, toNat_rbField,
    toNat_rcField, toNat_immField]
  omega

/-! ## Check 2: reserved bits -/

/-- The fields of a CMD value that R63 reserves for an opcode are 0. -/
def ReservedFieldsZero (v : Word) : Opcode → Prop
  | .add128 | .and128 | .mul64 => rcField v = 0#4 ∧ immField v = 0#8
  | .cmp128 => rdField v = 0#4 ∧ rcField v = 0#4 ∧ immField v = 0#8
  | .absorb => raField v = 0#4 ∧ rbField v = 0#4 ∧ rcField v = 0#4
  | .combine => immField v = 0#8
  | .finalize => rbField v = 0#4 ∧ rcField v = 0#4

theorem upper_eq_zero_iff (v : Word) : v.extractLsb' 32 32 = 0#32 ↔ v.toNat / 2 ^ 32 = 0 := by
  have hv := v.isLt
  rw [← BitVec.toNat_inj, BitVec.extractLsb'_toNat, Nat.shiftRight_eq_div_pow, BitVec.toNat_ofNat]
  omega

/-- The fields and CMD[63:32] make up the whole CMD value (R60, R61). -/
theorem word_eq_zero_iff (v : Word) :
    v = 0#64 ↔ v.extractLsb' 32 32 = 0#32 ∧ rdField v = 0#4 ∧ raField v = 0#4 ∧ rbField v = 0#4 ∧ rcField v = 0#4 ∧
      immField v = 0#8 ∧ opField v = 0#8 := by
  have hv := v.isLt
  rw [upper_eq_zero_iff]
  simp only [← BitVec.toNat_inj, toNat_opField, toNat_rdField, toNat_raField, toNat_rbField, toNat_rcField,
    toNat_immField, BitVec.toNat_ofNat]
  omega

/-- The mask of an opcode keeps CMD[63:32] and the fields R63 reserves: each field of it is all ones or 0. -/
theorem and_reservedMask_eq_zero_iff (v : Word) (o : Opcode) :
    v &&& reservedMask o = 0#64 ↔ v.toNat / 2 ^ 32 = 0 ∧ ReservedFieldsZero v o := by
  have ones4 (x : BitVec 4) : x &&& 15#4 = x := BitVec.and_allOnes
  have ones8 (x : BitVec 8) : x &&& 255#8 = x := BitVec.and_allOnes
  have ones32 (x : BitVec 32) : x &&& 4294967295#32 = x := BitVec.and_allOnes
  rw [word_eq_zero_iff, ← upper_eq_zero_iff]
  simp only [opField, rdField, raField, rbField, rcField, immField, BitVec.extractLsb'_and]
  cases o <;>
    simp [reservedMask, ReservedFieldsZero, rdField, raField, rbField, rcField, immField, ones4, ones8, ones32]

/-! ## What the decoder answers (R66) -/

theorem decodeCmd_of_illegalOpcode {v : Word} (h : opcodeOf (opField v) = none) :
    decodeCmd v = .error .illegalOpcode := by
  simp only [decodeCmd, h]

variable {v : Word} {o : Opcode}

theorem decodeCmd_of_reservedField (ho : opcodeOf (opField v) = some o) (hr : v &&& reservedMask o ≠ 0#64) :
    decodeCmd v = .error .reservedField := by
  simp only [decodeCmd, ho, if_neg hr]

theorem decodeCmd_of_badReg (ho : opcodeOf (opField v) = some o) (hr : v &&& reservedMask o = 0#64)
    (hi : operandsOf o v = none) : decodeCmd v = .error .badReg := by
  simp only [decodeCmd, ho, if_pos hr, hi]

theorem decodeCmd_of_operands (ho : opcodeOf (opField v) = some o) (hr : v &&& reservedMask o = 0#64) {i : Instr}
    (hi : operandsOf o v = some i) : decodeCmd v = if i.wellFormed then .ok i else .error .badImm := by
  simp only [decodeCmd, ho, if_pos hr, hi]

/-- A CMD value that decodes has passed the four checks (R66). -/
theorem checks_of_decodeCmd {i : Instr} (h : decodeCmd v = .ok i) :
    ∃ o, opcodeOf (opField v) = some o ∧ v &&& reservedMask o = 0#64 ∧ operandsOf o v = some i ∧
      i.wellFormed = true := by
  cases ho : opcodeOf (opField v) with
  | none => rw [decodeCmd_of_illegalOpcode ho] at h; cases h
  | some o =>
    by_cases hr : v &&& reservedMask o = 0#64
    · cases hi : operandsOf o v with
      | none => rw [decodeCmd_of_badReg ho hr hi] at h; cases h
      | some j =>
        rw [decodeCmd_of_operands ho hr hi] at h
        split at h
        · next hw => cases h; exact ⟨o, rfl, hr, hi, hw⟩
        · cases h
    · rw [decodeCmd_of_reservedField ho hr] at h; cases h

/-! ## From an instruction to its word and back -/

section FieldsOfAssembled

variable (rd ra rb rc : BitVec 4) (imm : BitVec 8)

@[simp] theorem opField_assemble : opField ((assemble o rd ra rb rc imm).setWidth 64) = opByte o :=
  let ⟨h, _⟩ := fields_assemble o rd ra rb rc imm
  h

@[simp] theorem rdField_assemble : rdField ((assemble o rd ra rb rc imm).setWidth 64) = rd :=
  let ⟨_, h, _⟩ := fields_assemble o rd ra rb rc imm
  h

@[simp] theorem raField_assemble : raField ((assemble o rd ra rb rc imm).setWidth 64) = ra :=
  let ⟨_, _, h, _⟩ := fields_assemble o rd ra rb rc imm
  h

@[simp] theorem rbField_assemble : rbField ((assemble o rd ra rb rc imm).setWidth 64) = rb :=
  let ⟨_, _, _, h, _⟩ := fields_assemble o rd ra rb rc imm
  h

@[simp] theorem rcField_assemble : rcField ((assemble o rd ra rb rc imm).setWidth 64) = rc :=
  let ⟨_, _, _, _, h, _⟩ := fields_assemble o rd ra rb rc imm
  h

@[simp] theorem immField_assemble : immField ((assemble o rd ra rb rc imm).setWidth 64) = imm :=
  let ⟨_, _, _, _, _, h, _⟩ := fields_assemble o rd ra rb rc imm
  h

end FieldsOfAssembled

/-- Every word is assembled, with the opcode of its instruction (R61, R62). -/
theorem encodeCmd_assembled (i : Instr) :
    ∃ rd ra rb rc imm, encodeCmd i = (assemble (opcodeFor i) rd ra rb rc imm).setWidth 64 := by
  cases i <;> exact ⟨_, _, _, _, _, rfl⟩

theorem opcodeOf_encodeCmd (i : Instr) : opcodeOf (opField (encodeCmd i)) = some (opcodeFor i) := by
  obtain ⟨rd, ra, rb, rc, imm, h⟩ := encodeCmd_assembled i
  rw [h, opField_assemble, opcodeOf_opByte]

theorem upper_encodeCmd (i : Instr) : (encodeCmd i).toNat / 2 ^ 32 = 0 := by
  obtain ⟨rd, ra, rb, rc, imm, h⟩ := encodeCmd_assembled i
  obtain ⟨_, _, _, _, _, _, hz⟩ := fields_assemble (opcodeFor i) rd ra rb rc imm
  rw [h, hz]

theorem reservedFieldsZero_encodeCmd (i : Instr) : ReservedFieldsZero (encodeCmd i) (opcodeFor i) := by
  cases i <;> simp [encodeCmd, encode, opcodeFor, ReservedFieldsZero]

theorem operandsOf_encodeCmd (i : Instr) : operandsOf (opcodeFor i) (encodeCmd i) = some i := by
  cases i <;> simp [encodeCmd, encode, opcodeFor, operandsOf, srcOf_srcSelector, destOf_destSelector]

/-- The word of an instruction decodes to it, by the range of its immediate (R65, R66). -/
theorem decodeCmd_encodeCmd (i : Instr) :
    decodeCmd (encodeCmd i) = if i.wellFormed then .ok i else .error .badImm :=
  decodeCmd_of_operands (opcodeOf_encodeCmd i)
    ((and_reservedMask_eq_zero_iff _ _).2 ⟨upper_encodeCmd i, reservedFieldsZero_encodeCmd i⟩) (operandsOf_encodeCmd i)

/-- The word of the operands that a CMD value names is the CMD value: no bit of it is ignored (R61 to R64). -/
theorem encodeCmd_of_operands {i : Instr} (ho : opField v = opByte o) (hr : v &&& reservedMask o = 0#64)
    (hi : operandsOf o v = some i) : encodeCmd i = v := by
  obtain ⟨hz, hfields⟩ := (and_reservedMask_eq_zero_iff v o).1 hr
  cases o <;>
    simp only [operandsOf, Option.bind_eq_bind, Option.bind_eq_some_iff, Option.pure_def, Option.some.injEq] at hi
  case add128 | and128 | mul64 =>
    obtain ⟨rd, hrd, ra, hra, rb, hrb, rfl⟩ := hi
    obtain ⟨hrc, himm⟩ := hfields
    exact setWidth_assemble_of_fields hz ho (destOf_eq_some hrd) (srcOf_eq_some hra) (srcOf_eq_some hrb) hrc himm
  case cmp128 =>
    obtain ⟨ra, hra, rb, hrb, rfl⟩ := hi
    obtain ⟨hrd, hrc, himm⟩ := hfields
    exact setWidth_assemble_of_fields hz ho hrd (srcOf_eq_some hra) (srcOf_eq_some hrb) hrc himm
  case absorb =>
    obtain ⟨rd, hrd, rfl⟩ := hi
    obtain ⟨hra, hrb, hrc⟩ := hfields
    exact setWidth_assemble_of_fields hz ho (destOf_eq_some hrd) hra hrb hrc rfl
  case combine =>
    obtain ⟨rd, hrd, ra, hra, rb, hrb, rc, hrc, rfl⟩ := hi
    exact setWidth_assemble_of_fields hz ho (destOf_eq_some hrd) (srcOf_eq_some hra) (srcOf_eq_some hrb)
      (srcOf_eq_some hrc) hfields
  case finalize =>
    obtain ⟨rd, hrd, ra, hra, rfl⟩ := hi
    obtain ⟨hrb, hrc⟩ := hfields
    exact setWidth_assemble_of_fields hz ho (destOf_eq_some hrd) (srcOf_eq_some hra) hrb hrc rfl

/-! ## The four checks as numbers (R61, R63 to R66) -/

theorem exists_srcOf_iff (b : BitVec 4) : (∃ x, srcOf b = some x) ↔ b.toNat < 9 := by
  rw [← Option.ne_none_iff_exists', Ne, srcOf_eq_none, not_not]

theorem exists_destOf_iff (b : BitVec 4) : (∃ d, destOf b = some d) ↔ b.toNat < 8 := by
  rw [← Option.ne_none_iff_exists', Ne, destOf_eq_none, not_not]

theorem tailLengthOk_iff (imm : BitVec 8) : tailLengthOk imm = true ↔ imm.toNat < 128 := by revert imm; decide

theorem op_eq (v : Word) : op v = (opField v).toNat := (toNat_opField v).symm
theorem nibble_rd (v : Word) : nibble v 8 = (rdField v).toNat := (toNat_rdField v).symm
theorem nibble_ra (v : Word) : nibble v 12 = (raField v).toNat := (toNat_raField v).symm
theorem nibble_rb (v : Word) : nibble v 16 = (rbField v).toNat := (toNat_rbField v).symm
theorem nibble_rc (v : Word) : nibble v 20 = (rcField v).toNat := (toNat_rcField v).symm
theorem imm_eq (v : Word) : imm v = (immField v).toNat := (toNat_immField v).symm

/-- Check 1 fails on the op fields outside 1..7 (R62). -/
theorem opcodeOf_eq_none_iff_op (v : Word) : opcodeOf (opField v) = none ↔ op v = 0 ∨ 7 < op v := by
  rw [opcodeOf_eq_none, op_eq]

theorem exists_opcodeOf (h : 1 ≤ op v ∧ op v ≤ 7) : ∃ o, opcodeOf (opField v) = some o := by
  rw [← Option.ne_none_iff_exists', Ne, opcodeOf_eq_none_iff_op]
  omega

theorem op_of_opcode (ho : opcodeOf (opField v) = some o) : op v = (opByte o).toNat := by
  rw [op_eq, opcodeOf_eq_some ho]

/-- Check 2, which the decoder does with a mask (R63). -/
theorem and_reservedMask_iff_reservedZero (ho : opcodeOf (opField v) = some o) :
    v &&& reservedMask o = 0#64 ↔ ReservedZero v := by
  rw [and_reservedMask_eq_zero_iff, ReservedZero, op_of_opcode ho]
  cases o <;> simp [ReservedFieldsZero, opByte, nibble_rd, nibble_ra, nibble_rb, nibble_rc, imm_eq, ← BitVec.toNat_inj]

/-- Check 3, which the decoder does by reading the selectors that the opcode uses (R64). -/
theorem exists_operandsOf_iff (ho : opcodeOf (opField v) = some o) :
    (∃ i, operandsOf o v = some i) ↔ SelectorsLegal v := by
  rw [SelectorsLegal, op_of_opcode ho, nibble_rd, nibble_ra, nibble_rb, nibble_rc, ← exists_destOf_iff]
  simp only [← exists_srcOf_iff]
  cases o <;> simp [operandsOf, Option.bind_eq_some_iff, opByte]

/-- Check 4: only ABSORB and FINALIZE have an immediate to check (R65). -/
theorem wellFormed_iff_immediateLegal (ho : opcodeOf (opField v) = some o) {i : Instr}
    (hi : operandsOf o v = some i) : i.wellFormed = true ↔ ImmediateLegal v := by
  rw [ImmediateLegal, op_of_opcode ho, imm_eq]
  cases o <;>
    simp only [operandsOf, Option.bind_eq_bind, Option.bind_eq_some_iff, Option.pure_def, Option.some.injEq] at hi
  case absorb =>
    obtain ⟨rd, _, rfl⟩ := hi
    simp [Instr.wellFormed, laneCountOk, opByte]
  case finalize =>
    obtain ⟨rd, _, ra, _, rfl⟩ := hi
    simp [Instr.wellFormed, tailLengthOk_iff, opByte]
  case add128 | and128 | mul64 =>
    obtain ⟨rd, _, ra, _, rb, _, rfl⟩ := hi
    simp [Instr.wellFormed, opByte]
  case cmp128 =>
    obtain ⟨ra, _, rb, _, rfl⟩ := hi
    simp [Instr.wellFormed, opByte]
  case combine =>
    obtain ⟨rd, _, ra, _, rb, _, rc, _, rfl⟩ := hi
    simp [Instr.wellFormed, opByte]

/-! ## Completions that only record an error (R66, R151) -/

theorem complete_recordsOnly {code : ErrCode} (h : decodeCmd v = .error code) (s : State) :
    ∃ t, complete v s = .next t ∧ RecordsOnly code s t :=
  ⟨_, complete_of_error h s, raise_eq s code⟩

/-- An immediate out of range makes a command record BAD_IMM (R65; log 13). -/
theorem exec_of_illFormed {i : Instr} (hw : i.wellFormed = false) (s : State) : exec i s = .next (s.raise .badImm) := by
  cases i with
  | absorb rd imm => exact if_neg (ne_true_of_eq_false hw)
  | finalize rd ra imm => exact if_neg (ne_true_of_eq_false hw)
  | _ => cases hw

end Sys2Proof.Machine
end

section
/-! PROOFS. The words of the commands and the four checks of the decoder (O1 to O5, O28). -/

namespace Sys2Proof.Machine

open Sys2Proof.Reference

/-- Settles O3: the word passes the first three checks, and the fourth is that the instruction is well formed. -/
theorem decodeOfEncodeIsIdentity : Obligations.DecodeOfEncodeIsIdentity := by
  intro i hw
  rw [decodeCmd_encodeCmd, if_pos hw]

/-- Settles O2: every word is assembled, and the fields of an assembled word do not overlap. -/
theorem encodingFollowsFieldTable : Obligations.EncodingFollowsFieldTable := by
  refine ⟨?_, ?_, ?_, ?_, ?_, ?_, ?_⟩ <;> intros <;> simp [encode, toNat_assemble, assembled, opByte]

/-- Settles O4: the operands are read from the fields that are not reserved, and the other bits are 0. -/
theorem encodeOfDecodeIsIdentity : Obligations.EncodeOfDecodeIsIdentity := by
  intro v i h
  obtain ⟨o, ho, hr, hi, hw⟩ := checks_of_decodeCmd h
  exact ⟨encodeCmd_of_operands (opcodeOf_eq_some ho) hr hi, hw⟩

/-- Settles O5: each clause is the answer of the decoder where the check it names is the first to fail. -/
theorem commandChecksInOrder : Obligations.CommandChecksInOrder := by
  intro v s
  refine ⟨fun hop => ?_, fun hop hr => ?_, fun hop hr hs => ?_, fun hop hr hs him => ?_, fun hop hr hs him => ?_⟩
  · exact complete_recordsOnly (decodeCmd_of_illegalOpcode ((opcodeOf_eq_none_iff_op v).2 hop)) s
  · obtain ⟨o, ho⟩ := exists_opcodeOf hop
    rw [← and_reservedMask_iff_reservedZero ho] at hr
    exact complete_recordsOnly (decodeCmd_of_reservedField ho hr) s
  · obtain ⟨o, ho⟩ := exists_opcodeOf hop
    rw [← and_reservedMask_iff_reservedZero ho] at hr
    rw [← exists_operandsOf_iff ho, ← Option.ne_none_iff_exists', Ne, not_not] at hs
    exact complete_recordsOnly (decodeCmd_of_badReg ho hr hs) s
  · obtain ⟨o, ho⟩ := exists_opcodeOf hop
    rw [← and_reservedMask_iff_reservedZero ho] at hr
    obtain ⟨i, hi⟩ := (exists_operandsOf_iff ho).2 hs
    rw [← wellFormed_iff_immediateLegal ho hi] at him
    exact complete_recordsOnly ((decodeCmd_of_operands ho hr hi).trans (if_neg him)) s
  · obtain ⟨o, ho⟩ := exists_opcodeOf hop
    rw [← and_reservedMask_iff_reservedZero ho] at hr
    obtain ⟨i, hi⟩ := (exists_operandsOf_iff ho).2 hs
    rw [← wellFormed_iff_immediateLegal ho hi] at him
    have hd : decodeCmd v = .ok i := (decodeCmd_of_operands ho hr hi).trans (if_pos him)
    exact ⟨i, hd, complete_of_ok hd s⟩

/-- Settles O1: seven fixed words. -/
theorem specWordsDecode : Obligations.SpecWordsDecode := by
  refine ⟨?_, ?_, ?_, ?_, ?_, ?_, ?_⟩ <;> decide

/-- Settles O28: recording BAD_IMM is all such a command does. -/
theorem illFormedImmediateRecordsBadImm : Obligations.IllFormedImmediateRecordsBadImm :=
  fun _ s hw => ⟨_, exec_of_illFormed hw s, raise_eq s .badImm⟩

end Sys2Proof.Machine
end

section
/-! PROOFS. COMBINE as numbers (R110 to R113), and the pseudo-instructions (O26). -/

namespace Sys2Proof.Machine

open Sys2Proof.Reference

/-! ## Limbs, shifts and side-by-side halves as numbers (R110, R112, R113) -/

theorem limb_zero (x : Wide) : limb x.value 0 = (lo32 x.lo).toNat := by
  rw [toNat_lo32, ← Wide.value_lo, limb]; omega

theorem limb_one (x : Wide) : limb x.value 1 = (hi32 x.lo).toNat := by
  rw [toNat_hi32, ← Wide.value_lo, limb]; omega

theorem limb_two (x : Wide) : limb x.value 2 = (lo32 x.hi).toNat := by
  rw [toNat_lo32, ← Wide.value_hi, limb]

theorem limb_three (x : Wide) : limb x.value 3 = (hi32 x.hi).toNat := by
  have := Wide.value_lt x
  rw [toNat_hi32, ← Wide.value_hi, limb]; omega

theorem toNat_lo32_lt (x : Word) : (lo32 x).toNat < 2 ^ 32 := by
  rw [toNat_lo32]; omega

theorem toNat_hi32_lt (x : Word) : (hi32 x).toNat < 2 ^ 32 := by
  rw [toNat_hi32]; have := x.isLt; omega

theorem toNat_shiftRight (x : Word) (n : Nat) : (x >>> n).toNat = x.toNat / 2 ^ n := by
  rw [BitVec.toNat_ushiftRight, Nat.shiftRight_eq_div_pow]

theorem toNat_shiftLeft (x : Word) (n : Nat) : (x <<< n).toNat = x.toNat * 2 ^ n % 2 ^ 64 := by
  rw [BitVec.toNat_shiftLeft, Nat.shiftLeft_eq]

/-- Two limbs have an exact product. -/
theorem toNat_mul_of_limbs {x y : Word} (hx : x.toNat < 2 ^ 32) (hy : y.toNat < 2 ^ 32) :
    (x * y).toNat = x.toNat * y.toNat := by
  have h : x.toNat * y.toNat < 2 ^ 32 * 2 ^ 32 := Nat.mul_lt_mul'' hx hy
  rw [BitVec.toNat_mul, Nat.mod_eq_of_lt (by omega)]

/-- A diagonal sum, the doubled sum of the diagonal four above it, and an addend, wrapping once (R112). -/
theorem toNat_add_double (c d x : Word) :
    (c + (d <<< 1) + x).toNat = (c.toNat + 2 * d.toNat + x.toNat) % 2 ^ 64 := by
  rw [BitVec.toNat_add, BitVec.toNat_add, toNat_shiftLeft]; omega

/-- A word with its low 32 bits clear, and one below 2^32, do not overlap. -/
theorem toNat_or_of_disjoint {x y : Word} {q : Nat} (hx : x.toNat = q * 2 ^ 32) (hy : y.toNat < 2 ^ 32) :
    (x ||| y).toNat = q * 2 ^ 32 + y.toNat := by
  rw [BitVec.toNat_or, hx, ← Nat.shiftLeft_eq, ← Nat.shiftLeft_add_eq_or_of_lt hy]

theorem toNat_low32 (x : Word) : ((x <<< 32) >>> 32).toNat = x.toNat % 2 ^ 32 := by
  rw [toNat_shiftRight, toNat_shiftLeft]; omega

/-- The low limb of the reassembly (R113). -/
theorem toNat_low_reassembly (r1 r0 : Word) :
    ((r1 <<< 32) ||| ((r0 <<< 32) >>> 32)).toNat = r1.toNat % 2 ^ 32 * 2 ^ 32 + r0.toNat % 2 ^ 32 := by
  rw [toNat_or_of_disjoint (q := r1.toNat % 2 ^ 32), toNat_low32]
  · rw [toNat_shiftLeft]; omega
  · rw [toNat_low32]; omega

/-- The high limb of the reassembly, before the carry of r1 (R113). -/
theorem toNat_high_reassembly (r3 r2 : Word) :
    (((r3 <<< 33) >>> 1) ||| ((r2 <<< 32) >>> 32)).toNat = r3.toNat % 2 ^ 31 * 2 ^ 32 + r2.toNat % 2 ^ 32 := by
  rw [toNat_or_of_disjoint (q := r3.toNat % 2 ^ 31), toNat_low32]
  · rw [toNat_shiftRight, toNat_shiftLeft]; omega
  · rw [toNat_low32]; omega

/-! ## The reducer as numbers -/

/-- The carry propagation and the reassembly as numbers (R112, R113). -/
theorem combineReduce_value (c0 c1 c2 c3 c4 c5 c6 : Word) (a : Wide) :
    (combineReduce c0 c1 c2 c3 c4 c5 c6 a).value =
      let r2 := (c2.toNat + 2 * c6.toNat + a.value / 2 ^ 64) % 2 ^ 64
      let r3 := (c3.toNat + r2 / 2 ^ 32) % 2 ^ 64
      let r0 := (c0.toNat + 2 * c4.toNat + limb a.value 0 + r3 / 2 ^ 31) % 2 ^ 64
      let r1 := (c1.toNat + 2 * c5.toNat + limb a.value 1 + r0 / 2 ^ 32) % 2 ^ 64
      (r3 % 2 ^ 31 * 2 ^ 32 + r2 % 2 ^ 32 + r1 / 2 ^ 32) % 2 ^ 64 * 2 ^ 64 +
        (r1 % 2 ^ 32 * 2 ^ 32 + r0 % 2 ^ 32) := by
  rw [limb_zero, limb_one, Wide.value_hi]
  simp only [combineReduce, Wide.value, toNat_low_reassembly, toNat_high_reassembly, ↓toNat_add_double,
    BitVec.toNat_add, toNat_shiftRight, Nat.mod_add_mod]

/-- COMBINE is its limb formula: the products of limbs are exact, the diagonal sums wrap (R110 to R113). -/
theorem combineF_value (h m a : Wide) :
    (combineF h m a).value = combine h.value m.value a.value := by
  simp only [combineF, combineReduce_value, combine, limb_zero, limb_one, limb_two, limb_three,
    ↓toNat_mul_of_limbs, toNat_lo32_lt, toNat_hi32_lt, BitVec.toNat_add, Nat.mod_add_mod]

/-! ## Pseudo-instructions (R69) -/

theorem wide_setWide_same (s : State) (i : WReg) (v : Wide) : (s.setWide i v).wide i = v := by simp

@[simp] theorem and128_self (a : Wide) : and128 a a = a := by simp [and128]

/-- Settles O26: each is the value its command writes, with ROUND_CONST read through KR. -/
theorem pseudoInstructionsAreExact : Obligations.PseudoInstructionsAreExact := by
  intro rd ra rc s
  refine ⟨⟨_, rfl, ?_⟩, ⟨_, rfl, ?_, rfl⟩, ⟨_, rfl, ?_⟩, ⟨_, rfl, ?_⟩⟩
  · rw [wide_setWide_same, and128_self]
  · rw [wide_setWide_same, and128_self, State.src]
  · rw [wide_setWide_same, add128_value]; rfl
  · rw [wide_setWide_same, combineF_value]; rfl

end Sys2Proof.Machine
end

section
/-! PROOFS. Every step answers a next state (O8), and the wide-integer commands as numbers: ADD128, AND128 and MUL64
(O13, O14, O16, O25). -/

namespace Sys2Proof.Machine

open Sys2Proof.Reference

/-! ## Steps -/

/-- Settles O8: a step is a STATUS read in flight, a completion, an access, or nothing. -/
theorem everyStepAnswersNext : Obligations.EveryStepAnswersNext := by
  intro s
  cases hc : s.inflight with
  | some c =>
    cases hp : s.pollIsNext c with
    | true => exact ⟨_, step_poll hc hp⟩
    | false =>
      rw [step_complete hc hp]
      exact complete_answers c.word _
  | none =>
    cases hp : s.pending with
    | nil => exact ⟨s, idleBlockStaysAsItIs s hc hp⟩
    | cons a rest => exact ⟨_, step_access hc hp⟩

/-! ## What the commands write (R82, R85, R89) -/

section
variable (rd : WReg) (ra rb : Src) (s : State)

theorem exec_add128 :
    exec (.add128 rd ra rb) s
      = .next ((s.noteRead (s.readsMarked (.add128 rd ra rb))).setWide rd (add128 (s.src ra) (s.src rb))) := rfl

theorem exec_and128 :
    exec (.and128 rd ra rb) s
      = .next ((s.noteRead (s.readsMarked (.and128 rd ra rb))).setWide rd (and128 (s.src ra) (s.src rb))) := rfl

theorem exec_mul64 :
    exec (.mul64 rd ra rb) s
      = .next ((s.noteRead (s.readsMarked (.mul64 rd ra rb))).setWide rd
          (mul64x64 (s.src ra).lo (s.src rb).lo)) := rfl

end

/-! ## Carry and bitwise AND (R81, R84) -/

/-- A sum of words wraps exactly when the result is below the first summand. -/
theorem le_toNat_add_iff_lt_left (x y : Word) : 2 ^ 64 ≤ x.toNat + y.toNat ↔ x + y < x := by
  have hx := x.isLt
  have hy := y.isLt
  rw [BitVec.lt_def, BitVec.toNat_add]
  omega

/-- Comparing the wrapped sum with either summand gives the same carry. -/
theorem add_lt_left_iff_lt_right (x y : Word) : x + y < x ↔ x + y < y := by
  rw [← le_toNat_add_iff_lt_left, Nat.add_comm, le_toNat_add_iff_lt_left, BitVec.add_comm]

/-- The number of a wide value is that of its two limbs side by side (R10). -/
theorem Wide.value_eq_toNat_append (a : Wide) : a.value = (a.hi ++ a.lo).toNat := by
  rw [append_toNat, Wide.value, Nat.mul_comm]

/-- AND128 is the bitwise AND of the numbers: it acts on the limbs side by side (R84). -/
theorem and128_value (a b : Wide) : (and128 a b).value = a.value &&& b.value := by
  simp only [Wide.value_eq_toNat_append, ← BitVec.toNat_and, BitVec.and_append, and128]

/-- Settles O13: the value is the sum modulo 2^128, and the low limb is the wrapped sum of the low limbs. -/
theorem add128AddsModulo2Pow128 : Obligations.Add128AddsModulo2Pow128 := by
  intro rd ra rb s
  refine ⟨_, exec_add128 rd ra rb s, ?_⟩
  rw [wide_setWide_same]
  exact ⟨add128_value .., le_toNat_add_iff_lt_left .., add_lt_left_iff_lt_right ..⟩

/-- Settles O14: AND128 writes the AND of its sources, whose number is the AND of the numbers. -/
theorem and128IsBitwiseAnd : Obligations.And128IsBitwiseAnd := by
  intro rd ra rb s
  refine ⟨_, exec_and128 rd ra rb s, ?_⟩
  rw [wide_setWide_same, and128_value]

/-- Settles O16: MUL64 writes the product of the low limbs, which fits in 128 bits. -/
theorem mul64IsExactProduct : Obligations.Mul64IsExactProduct := by
  intro rd ra rb s
  refine ⟨_, exec_mul64 rd ra rb s, ?_⟩
  rw [wide_setWide_same, mul64x64_value]

/-! ## What MUL64 reads (R89) -/

/-- The low limb a source gives depends on the low limbs of W and on the constants. -/
theorem src_lo_congr {s s' : State} (hconsts : s.consts = s'.consts) (hlo : ∀ i, (s.wide i).lo = (s'.wide i).lo)
    (x : Src) : (s.src x).lo = (s'.src x).lo := by
  cases x with
  | w i => exact hlo i
  | kr => simp only [State.src, hconsts]

/-- Whether it is marked written depends on the low limbs' marks. -/
theorem srcLoMarked_congr {s s' : State} (hmarks : ∀ i, (s.marks i).lo = (s'.marks i).lo) (x : Src) :
    s.srcLoMarked x = s'.srcLoMarked x := by
  cases x with
  | w i => exact hmarks i
  | kr => rfl

/-- Settles O25: the product is made of the low limbs, and the note of the reads of their marks. -/
theorem mul64IgnoresHighLimbs : Obligations.Mul64IgnoresHighLimbs := by
  intro rd ra rb s s' hconsts hfault hlo hmarks
  have hreads : s.readsMarked (.mul64 rd ra rb) = s'.readsMarked (.mul64 rd ra rb) := by
    simp only [State.readsMarked, srcLoMarked_congr hmarks]
  refine ⟨_, _, exec_mul64 rd ra rb s, exec_mul64 rd ra rb s', ?_, ?_⟩
  · simp only [wide_setWide_same, src_lo_congr hconsts hlo]
  · simp only [setWide_modelFault, noteRead_modelFault, hreads, hfault]

end Sys2Proof.Machine
end

section
/-! PROOFS. The block absorber: ABSORB as a number, its range, and which words it reads (O17, O22 to O24). -/

namespace Sys2Proof.Machine

open Sys2Proof.Reference

/-! ## What ABSORB writes (R101) -/

/-- With at most eight lanes ABSORB notes its reads and writes the masked sum of its lanes (R65, R101). -/
theorem exec_absorb (rd : WReg) {imm : BitVec 8} (hk : imm.toNat ≤ 8) (s : State) :
    exec (.absorb rd imm) s
      = .next ((s.noteRead (s.readsMarked (.absorb rd imm))).setWide rd
          (absorbF s.consts.magicAt s.bufWord imm.toNat)) :=
  if_pos (decide_eq_true hk)

/-! ## The sum of the lanes as a number (R100) -/

/-- A lane of the sum is the exact product of its two words (R88, R100). -/
theorem mul64x64_value_eq_lane (magic block : Nat → Word) (i : Nat) :
    (mul64x64 (block (2 * i) + magic (2 * i)) (block (2 * i + 1) + magic (2 * i + 1))).value
      = lane magic block i := by
  rw [mul64x64_value, BitVec.toNat_add, BitVec.toNat_add, lane]

/-- The running sum loses only what the carries out of 128 bits hold. -/
theorem absorbSum_value (magic block : Nat → Word) (k : Nat) :
    (absorbSum magic block k).value = laneSum magic block k % 2 ^ 128 := by
  induction k with
  | zero => rw [absorbSum, Wide.value_zero, laneSum, Nat.zero_mod]
  | succ k ih => rw [absorbSum, add128_value, ih, mul64x64_value_eq_lane, Nat.mod_add_mod, laneSum]

/-- The mask reduces further, to the exact sum modulo 2^126. -/
theorem absorbF_value (magic block : Nat → Word) (k : Nat) :
    (absorbF magic block k).value = laneSum magic block k % 2 ^ 126 := by
  rw [absorbF, and128_mask126, absorbSum_value, Nat.mod_mod_of_dvd _ (pow_dvd_pow 2 (by decide))]

/-- Settles O17: the value ABSORB writes is the sum of its lanes modulo 2^126. -/
theorem absorbSumsLanesModulo2Pow126 : Obligations.AbsorbSumsLanesModulo2Pow126 := by
  intro rd imm s hk
  refine ⟨_, exec_absorb rd hk s, ?_⟩
  rw [wide_setWide_same, absorbF_value]

/-! ## The range of the result (R103) -/

theorem absorbF_value_lt (magic block : Nat → Word) (k : Nat) : (absorbF magic block k).value < 2 ^ 126 := by
  rw [absorbF_value]
  exact Nat.mod_lt _ (by decide)

/-- Bit `64 + i` of a number below 2^(64+n) is 0 for every `i` from `n` upward. -/
theorem Wide.getLsbD_hi_of_value_lt {a : Wide} {n i : Nat} (h : a.value < 2 ^ (64 + n)) (hle : n ≤ i) :
    a.hi.getLsbD i = false := by
  have hhi : a.hi.toNat < 2 ^ n := by
    rw [← Wide.value_hi]
    exact Nat.div_lt_of_lt_mul (Nat.pow_add 2 64 n ▸ h)
  exact Nat.testBit_lt_two_pow (hhi.trans_le (Nat.pow_le_pow_right (by decide) hle))

/-- 2^125 added to itself: two operands below 2^126, with a sum that is not. -/
theorem exists_add128_value_ge : ∃ a b, 2 ^ 126 ≤ (add128 a b).value :=
  ⟨⟨0x2000000000000000#64, 0#64⟩, ⟨0x2000000000000000#64, 0#64⟩, by decide⟩

/-- 2^125 multiplied by 2, with addend 0: three operands below 2^126, with a result that is not. -/
theorem exists_combineF_value_ge : ∃ h m a, 2 ^ 126 ≤ (combineF h m a).value :=
  ⟨⟨0x2000000000000000#64, 0#64⟩, ⟨0#64, 2#64⟩, Wide.zero, by decide⟩

/-- Settles O22: the masked sum is below 2^126, and ADD128 and COMBINE do not mask. -/
theorem absorbResultBelow2Pow126 : Obligations.AbsorbResultBelow2Pow126 := by
  refine ⟨fun rd imm s hk => ⟨_, exec_absorb rd hk s, ?_⟩, exists_add128_value_ge, exists_combineF_value_ge⟩
  rw [wide_setWide_same]
  have hlt := absorbF_value_lt s.consts.magicAt s.bufWord imm.toNat
  exact ⟨hlt, Wide.getLsbD_hi_of_value_lt (n := 62) hlt (by decide), Wide.getLsbD_hi_of_value_lt hlt le_rfl⟩

/-! ## What ABSORB reads (R101, R102) -/

/-- The sum of `k` lanes depends on the first `2k` words of the block only. -/
theorem absorbSum_congr {magic block block' : Nat → Word} {k : Nat} (h : ∀ j < 2 * k, block j = block' j) :
    absorbSum magic block k = absorbSum magic block' k := by
  induction k with
  | zero => rfl
  | succ k ih =>
    rw [absorbSum, absorbSum, ih fun j hj => h j (by omega), h (2 * k) (by omega), h (2 * k + 1) (by omega)]

/-- Settles O23: such states give the same sum of lanes, and the same mask applies to it. -/
theorem absorbReadsOnlyItsLanes : Obligations.AbsorbReadsOnlyItsLanes := by
  intro rd imm s s' hk hconsts hwords
  refine ⟨_, _, exec_absorb rd hk s, exec_absorb rd hk s', ?_⟩
  rw [wide_setWide_same, wide_setWide_same, hconsts, absorbF, absorbF, absorbSum_congr hwords]

/-- The empty sum is zero, and the mask keeps it. -/
theorem absorbF_zero (magic block : Nat → Word) : absorbF magic block 0 = Wide.zero := by
  rw [absorbF, absorbSum]
  decide

/-- Settles O24: no lane is added, and the note of no read records nothing. -/
theorem absorbOfNoLanesIsZero : Obligations.AbsorbOfNoLanesIsZero := by
  intro rd s
  have hmarked : s.readsMarked (.absorb rd 0#8) = true := rfl
  refine ⟨_, exec_absorb rd (by decide) s, ?_, ?_⟩
  · exact (wide_setWide_same ..).trans (absorbF_zero ..)
  · rw [setWide_modelFault, hmarked, noteRead_true]

end Sys2Proof.Machine
end

section
/-! PROOFS. COMBINE writes the limb formula of its sources, and with a zero accumulator the addend (O18, O19). -/

namespace Sys2Proof.Machine

open Sys2Proof.Reference

/-- COMBINE notes its reads and writes `COMBINE_F` of its sources (R114). -/
theorem exec_combine (rd : WReg) (ra rb rc : Src) (s : State) :
    exec (.combine rd ra rb rc) s
      = .next ((s.noteRead (s.readsMarked (.combine rd ra rb rc))).setWide rd
          (combineF (s.src ra) (s.src rb) (s.src rc))) := rfl

/-- Settles O18: the value COMBINE writes is the limb formula of its sources' numbers. -/
theorem combineFollowsLimbFormula : Obligations.CombineFollowsLimbFormula := by
  intro rd ra rb rc s
  refine ⟨_, exec_combine rd ra rb rc s, ?_⟩
  rw [wide_setWide_same, combineF_value]

/-! ## A zero accumulator (R114) -/

theorem limb_of_zero (i : Nat) : limb 0 i = 0 := by rw [limb, Nat.zero_div, Nat.zero_mod]

theorem limb_lt (x i : Nat) : limb x i < 2 ^ 32 := Nat.mod_lt _ (by decide)

/-- A limb fits in a word. -/
theorem limb_mod_word (x i : Nat) : limb x i % 2 ^ 64 = limb x i :=
  Nat.mod_eq_of_lt ((limb_lt x i).trans (by decide))

/-- A limb has no carry out of 32 bits. -/
theorem limb_carry (x i : Nat) : limb x i / 2 ^ 32 = 0 := Nat.div_eq_of_lt (limb_lt x i)

/-- The two lower limbs side by side are the low word. -/
theorem limbs_reassemble (x : Nat) : limb x 1 % 2 ^ 32 * 2 ^ 32 + limb x 0 % 2 ^ 32 = x % 2 ^ 64 := by
  unfold limb; omega

/-- Every diagonal sum is 0. An addend below 2^126 puts less than 2^30 into r3, so nothing is shifted out of it by 31,
no carry arises, and the reassembly puts the addend's own limbs back (R112, R113). -/
theorem combine_zero_left (m : Nat) {a : Nat} (ha : a < 2 ^ 126) : combine 0 m a = a := by
  have hr2 : a / 2 ^ 64 % 2 ^ 64 = a / 2 ^ 64 := by omega
  have hr3 : a / 2 ^ 64 / 2 ^ 32 % 2 ^ 64 = a / 2 ^ 64 / 2 ^ 32 := by omega
  have hshift : a / 2 ^ 64 / 2 ^ 32 / 2 ^ 31 = 0 := by omega
  have hhigh : a / 2 ^ 64 / 2 ^ 32 % 2 ^ 31 * 2 ^ 32 + a / 2 ^ 64 % 2 ^ 32 = a / 2 ^ 64 := by omega
  simp only [combine, limb_of_zero, Nat.zero_mul, Nat.zero_mod, Nat.mul_zero, Nat.zero_add, Nat.add_zero,
    limb_mod_word, limb_carry, limbs_reassemble, hr2, hr3, hshift, hhigh, Nat.div_add_mod']

/-- The number determines the wide value, so `COMBINE_F` itself gives the addend back (R114). -/
theorem combineF_zero_left (m : Wide) {a : Wide} (ha : a.value < 2 ^ 126) : combineF Wide.zero m a = a :=
  Wide.eq_of_value_eq (by rw [combineF_value, Wide.value_zero, combine_zero_left _ ha])

/-- Settles O19: `COMBINE_F` of a zero accumulator gives back the addend, and that is the value COMBINE writes. -/
theorem combineOfZeroPassesAddend : Obligations.CombineOfZeroPassesAddend := by
  intro rd ra rb rc s hzero hlt
  refine ⟨_, exec_combine rd ra rb rc s, ?_⟩
  rw [wide_setWide_same, hzero, combineF_zero_left _ hlt]

end Sys2Proof.Machine
end

section
/-! PROOFS. The two-stage finalizer as numbers, one lemma per step, and what FINALIZE writes (O20, O21). -/

namespace Sys2Proof.Machine

open Sys2Proof.Reference

/-! ## What FINALIZE writes (R125) -/

/-- A tail length below 128 is the whole immediate (R65). -/
theorem tailLength_of_lt {imm : BitVec 8} (h : imm.toNat < 128) : tailLength imm = imm.toNat := by
  rw [tailLength, BitVec.extractLsb'_toNat, Nat.shiftRight_zero, Nat.mod_eq_of_lt h]

theorem Wide.lo_ofLow (x : Word) : (Wide.ofLow x).lo = x := rfl

/-- With a tail length below 128 FINALIZE notes its reads and writes the digest of its source (R65, R125). -/
theorem exec_finalize (rd : WReg) (ra : Src) {imm : BitVec 8} (h : imm.toNat < 128) (s : State) :
    exec (.finalize rd ra imm) s
      = .next ((s.noteRead (s.readsMarked (.finalize rd ra imm))).setWide rd
          (Wide.ofLow (finalF s.consts.finalConst0 s.consts.finalConst1 (s.src ra) imm.toNat))) :=
  (if_pos ((tailLengthOk_iff imm).2 h)).trans (by rw [tailLength_of_lt h]; rfl)

/-! ## Steps 1 to 3: the tail's bit length and the 127-bit mask (R120) -/

theorem toNat_tailBits {t : Nat} (ht : t < 128) : (BitVec.ofNat 64 t * 8#64).toNat = 8 * t := by
  rw [BitVec.toNat_mul, BitVec.toNat_ofNat, BitVec.toNat_ofNat]; omega

theorem mask127_value : mask127.value = 2 ^ 127 - 1 := by decide

/-- CMP128 answers other than LESS exactly when the first number is not below the second (R86). -/
theorem cmp128_ne_lt_iff (a b : Wide) : cmp128 a b ≠ .lt ↔ b.value ≤ a.value := by
  rw [cmp128_value]
  split
  · next heq => exact iff_of_true (by decide) heq.ge
  · next hne =>
    split
    · next hgt => exact iff_of_true (by decide) hgt.le
    · next hle => exact iff_of_false (by decide) (by omega)

theorem finalMix_value (h : Wide) {t : Nat} (ht : t < 128) :
    (Machine.finalMix h t).value = Reference.finalMix h.value t := by
  simp only [Machine.finalMix, Reference.finalMix, and128_mask127, cmp128_ne_lt_iff, apply_ite Wide.value, add128_value,
    Wide.value_ofLow, BitVec.toNat_one (Nat.succ_pos 63), mask127_value, toNat_tailBits ht]

/-! ## The conditional addition of 0x101 (R122, R124) -/

theorem toNat_0x101 : (0x101#64).toNat = 257 := rfl

/-- A step that adds 0x101 under a condition, wrapping, read as a step on numbers under an equivalent condition. -/
theorem toNat_adjust {P Q : Prop} [Decidable P] [Decidable Q] (hPQ : P ↔ Q) (x : Word) :
    (if P then x + 0x101#64 else x).toNat = if Q then (x.toNat + 257) % 2 ^ 64 else x.toNat := by
  rw [apply_ite BitVec.toNat, BitVec.toNat_add, toNat_0x101]
  exact if_congr hPQ rfl rfl

/-! ## Steps 4 to 6: the two lanes and the final constants (R121, R122) -/

/-- The carry that lane X takes from its first sum (R121). -/
theorem toNat_finalX_carry (x : Word) :
    ((x + (x >>> 32) + 1#64) >>> 32).toNat = (x.toNat + x.toNat / 2 ^ 32 + 1) % 2 ^ 64 / 2 ^ 32 := by
  rw [toNat_shiftRight, BitVec.toNat_add, BitVec.toNat_add, toNat_shiftRight, Nat.mod_add_mod,
    BitVec.toNat_one (Nat.succ_pos 63)]

theorem toNat_finalX (v : Wide) : (Machine.finalX v).toNat = Reference.finalX v.value := by
  simp only [Machine.finalX, Reference.finalX, Wide.value_hi, Wide.value_lo, BitVec.toNat_add, ↓toNat_finalX_carry,
    toNat_shiftRight]

/-- Lane Y adds the low limb after the shifted lane X has wrapped, which leaves the sum modulo 2^64 the same. -/
theorem toNat_finalY (v : Wide) : (Machine.finalY v).toNat = Reference.finalY v.value := by
  rw [Machine.finalY, Reference.finalY, BitVec.toNat_add, toNat_shiftLeft, toNat_finalX, Wide.value_lo, Nat.mod_add_mod]

theorem toNat_addFinalConst (x c : Word) : (addFinalConst x c).toNat = finalAdd x.toNat c.toNat := by
  rw [addFinalConst, finalAdd, ← BitVec.toNat_add]
  exact toNat_adjust BitVec.lt_def (x + c)

/-! ## Steps 7 to 9: the product, the reductions and the adjustments (R123, R124) -/

theorem finalReduce_value (p : Wide) : (Machine.finalReduce p).value = Reference.finalReduce p.value := by
  rw [Machine.finalReduce, Reference.finalReduce, add128_value, mul64x64_value, toNat_0x101, Wide.value_ofLow,
    Wide.value_hi, Wide.value_lo]

/-- The threshold of the second adjustment (R124). -/
theorem toNat_adjustThreshold : (0xFFFFFFFFFFFFFEFE#64).toNat = 2 ^ 64 - 258 := by decide

theorem toNat_finalCanonical (p : Wide) : (Machine.finalCanonical p).toNat = Reference.finalCanonical p.value := by
  have hhi : p.hi ≠ 0#64 ↔ p.value / 2 ^ 64 ≠ 0 := by rw [Wide.value_hi]; exact BitVec.toNat_ne_iff_ne.symm
  rw [Machine.finalCanonical, Reference.finalCanonical, Wide.value_lo, ← toNat_adjust hhi p.lo]
  exact toNat_adjust (by rw [BitVec.lt_def, toNat_adjustThreshold]) _

theorem toNat_finalF (c0 c1 : Word) (h : Wide) {t : Nat} (ht : t < 128) :
    (finalF c0 c1 h t).toNat = Reference.final c0.toNat c1.toNat h.value t := by
  rw [finalF, Reference.final, toNat_finalCanonical, finalReduce_value, finalReduce_value, mul64x64_value,
    toNat_addFinalConst, toNat_addFinalConst, toNat_finalX, toNat_finalY, finalMix_value h ht]

/-- Settles O20: FINALIZE writes the pair (0, digest), and each step of the digest is its step on numbers. -/
theorem finalizeFollowsTwoStageReduction : Obligations.FinalizeFollowsTwoStageReduction := by
  intro rd ra imm s h
  refine ⟨_, exec_finalize rd ra h s, ?_⟩
  rw [wide_setWide_same, Wide.lo_ofLow, toNat_finalF _ _ _ h]
  exact ⟨rfl, rfl⟩

/-! ## The second adjustment (R125) -/

/-- A word above 2^64 - 258 is at least the modulus 2^64 - 257, so adding 257 wraps it to less than 257. -/
theorem secondAdjustment_lt {r : Nat} (hfires : 2 ^ 64 - 258 < r) (hword : r < 2 ^ 64) :
    (r + 257) % 2 ^ 64 < 257 := by omega

/-- Settles O21: the digest is the result after the first adjustment with the second applied, which wraps. -/
theorem secondAdjustmentIsCanonical : Obligations.SecondAdjustmentIsCanonical := by
  intro h hfires
  rw [toNat_finalCanonical, Reference.finalCanonical, if_pos hfires]
  exact (secondAdjustment_lt hfires (by split <;> exact Nat.mod_lt _ (by decide))).trans (by decide)

end Sys2Proof.Machine
end

section
/-! PROOFS. Access sequences of the host: what the block has done once it has performed a list of accesses and completed
the commands among them, put together from single BUF writes and commands (R48, R142). -/

namespace Sys2Proof.Machine

/-! ## The writes of the host program (R142) -/

/-- A write of the host program: of a BUF word, or of CMD. -/
inductive HostWrite : Access → Prop
  | buf {k : Nat} (hk : k < 16) (v : Word) : HostWrite (.write (bufOffset k) v)
  | cmd (v : Word) : HostWrite (.write cmdOffset v)

theorem HostWrite.isStatusRead_eq_false {a : Access} (h : HostWrite a) : a.isStatusRead = false := by
  cases h <;> rfl

theorem writeBlock_succ (x : List Byte) (n : Nat) :
    writeBlock x (n + 1) = writeBlock x n ++ [.write (bufOffset n) (packWord x n)] := by
  simp [writeBlock, List.range_succ]

theorem hostWrite_writeBlock (x : List Byte) {n : Nat} (hn : n ≤ 16) : ∀ a ∈ writeBlock x n, HostWrite a := by
  intro a ha
  obtain ⟨k, hk, rfl⟩ := List.mem_map.1 ha
  exact .buf ((List.mem_range.1 hk).trans_le hn) _

theorem hostWrite_issueInstr (i : Instr) : ∀ a ∈ [issueInstr i], HostWrite a :=
  List.forall_mem_singleton.2 (.cmd _)

theorem hostWrite_absorbAccesses (rd : WReg) (x : List Byte) {k : Nat} (hk : k ≤ 8) :
    ∀ a ∈ absorbAccesses rd x k, HostWrite a :=
  List.forall_mem_append.2 ⟨hostWrite_writeBlock x (by omega), hostWrite_issueInstr _⟩

theorem hostWrite_combineAccesses (x : List Byte) {k : Nat} (hk : k ≤ 8) : ∀ a ∈ combineAccesses x k, HostWrite a :=
  List.forall_mem_append.2 ⟨hostWrite_absorbAccesses 1 x hk, hostWrite_issueInstr _⟩

theorem hostWrite_blockAccesses (x : List Byte) (j n : Nat) : ∀ a ∈ blockAccesses x j n, HostWrite a := by
  induction n generalizing j with
  | zero => exact List.forall_mem_nil _
  | succ n ih => exact List.forall_mem_append.2 ⟨hostWrite_combineAccesses _ le_rfl, ih (j + 1)⟩

/-! ## Performing a list of accesses -/

/-- The block performs the accesses `as`, which come first in `s`, up to the completion of the last command among them,
and `Q` holds then. A STATUS read may not come next, since one could see the last command still in flight (R49). -/
def Performs (s : State) (as : List Access) (Q : State → Prop) : Prop :=
  ∀ rest, s.pending = as ++ rest → rest.head?.any Access.isStatusRead = false →
    ∃ t, Reaches s t ∧ t.pending = rest ∧ Q t

namespace Performs

variable {s : State} {as bs : List Access} {Q R : State → Prop}

theorem nil (h : Q s) : Performs s [] Q := fun _ hp _ => ⟨s, .refl s, hp, h⟩

theorem mono (h : Performs s as R) (hQ : ∀ t, R t → Q t) : Performs s as Q := by
  intro rest hp hrest
  obtain ⟨t, hst, ht, hR⟩ := h rest hp hrest
  exact ⟨t, hst, ht, hQ t hR⟩

theorem append (has : Performs s as R) (hbs : ∀ t, R t → Performs t bs Q) (hw : ∀ a ∈ bs, HostWrite a) :
    Performs s (as ++ bs) Q := by
  intro rest hp hrest
  have hnext : (bs ++ rest).head?.any Access.isStatusRead = false := by
    cases bs with
    | nil => exact hrest
    | cons b bs => exact (hw b List.mem_cons_self).isStatusRead_eq_false
  obtain ⟨t, hst, ht, hR⟩ := has (bs ++ rest) (by rw [hp, List.append_assoc]) hnext
  obtain ⟨u, htu, hu, hQ⟩ := hbs t hR rest ht hrest
  exact ⟨u, hst.trans htu, hu, hQ⟩

end Performs

/-! ## What the host's writes leave alone -/

/-- `s` with all that the host's writes of BUF and CMD change taken out: BUF, the CMD readback, the draw counter and the
accesses to come. -/
def State.blanked (s : State) : State := { s with buf := [], cmd := 0#64, draws := 0, pending := [] }

theorem blanked_setWide_congr {s t : State} (h : t.blanked = s.blanked) (rd : WReg) (v : Wide) :
    (t.setWide rd v).blanked = (s.setWide rd v).blanked :=
  congrArg (State.setWide · rd v) h

/-- What does not depend on those four fields is the same in states that agree apart from them. -/
theorem eq_of_blanked {α : Type} (f : State → α) {s t : State} (h : t.blanked = s.blanked)
    (hf : ∀ u, f u.blanked = f u := by exact fun _ => rfl) : f t = f s := by
  rw [← hf t, h, hf s]

section
variable {s : State} (hidle : s.inflight = none)
include hidle

theorem performs_bufWrite {k : Nat} (hk : k < 16) (v : Word) :
    Performs s [.write (bufOffset k) v] fun t => t.blanked = s.blanked ∧ t.buf = writeWord s.buf k v := by
  intro rest hp _
  have hstep : step s = .next ({ s with pending := rest }.setBufWord k v) :=
    (step_access hidle hp).trans (congrArg _ (writePort_buf hk _ v))
  exact ⟨_, .of_step hstep, rfl, rfl, rfl⟩

/-- The first `n` words of `x` stand in BUF, and registers and errors are as before (R46, R142). -/
theorem performs_writeBlock (x : List Byte) {n : Nat} (hn : n ≤ 16) :
    Performs s (writeBlock x n) fun t =>
      t.blanked = s.blanked ∧ ∀ j < n, readWord t.buf j = some (packWord x j) := by
  induction n with
  | zero => exact .nil ⟨rfl, nofun⟩
  | succ n ih =>
    rw [writeBlock_succ]
    refine (ih (by omega)).append (fun t ⟨ht, hwords⟩ => ?_) (List.forall_mem_singleton.2 (.buf hn _))
    refine (performs_bufWrite ((eq_of_blanked State.inflight ht).trans hidle) hn _).mono fun u ⟨hu, hbuf⟩ => ?_
    refine ⟨hu.trans ht, Nat.forall_lt_succ_right.2 ⟨fun j hj => ?_, ?_⟩⟩
    · rw [hbuf, readWord_writeWord_other _ _ hj.ne', hwords j hj]
    · rw [hbuf, readWord_writeWord_same]

/-- With ERR = 1 a CMD write is dropped (R153). -/
theorem performs_droppedCommand (herr : s.err = true) (v : Word) :
    Performs s [.write cmdOffset v] fun t => t.blanked = s.blanked := by
  intro rest hp _
  obtain ⟨hdrop, -⟩ := cmdWriteIssuesOrDrops s v rest hidle hp
  exact ⟨_, .of_step (hdrop herr), rfl, rfl⟩

/-- With ERR = 0 a command that is issued completes before the next access, and takes the effect it has in a state that
differs from `s` in the CMD readback, the draw counter and the accesses to come (R28, R48). -/
theorem performs_command (herr : s.err = false) {i : Instr} (hw : i.wellFormed = true) {Q : State → Prop}
    (hexec : ∀ u, u.blanked = s.blanked → u.buf = s.buf → ∃ t, exec i u = .next t ∧ Q t) :
    Performs s [issueInstr i] Q := by
  intro rest hp hrest
  obtain ⟨-, hissue⟩ := cmdWriteIssuesOrDrops s (encodeCmd i) rest hidle hp
  obtain ⟨polls, draws, hstep⟩ := hissue herr
  obtain ⟨t, ht, hQ⟩ := hexec { s with pending := rest, cmd := encodeCmd i, inflight := none, draws := draws }
    (by rw [State.blanked, State.blanked, hidle]) rfl
  have hcomplete : complete (encodeCmd i)
      { s with pending := rest, cmd := encodeCmd i, inflight := none, draws := draws } = .next t :=
    (complete_of_ok (decodeOfEncodeIsIdentity i hw) _).trans ht
  obtain ⟨-, hpending, -⟩ := exec_hostSide ht
  refine ⟨t, (Reaches.of_step hstep).trans (.of_step ((step_complete rfl ?_).trans hcomplete)), hpending, hQ⟩
  simp [State.pollIsNext, hrest]

end

end Sys2Proof.Machine
end

section
/-! PROOFS. The host access sequence of R142: the accumulator in W0 follows DIGEST64 (O47), and with an error recorded
every command is dropped (O50). -/

namespace Sys2Proof.Machine

/-! ## DIGEST64 and the host program by their parts (R141, R142) -/

/-- The first absorption of DIGEST64: of block 0, or of the padded tail where there is no block (R141). -/
def firstAbsorbed (c : ConstStore) (x : List Byte) : Wide :=
  if numBlocks x = 0 then absorbBytes c (paddedTail x) (tailLanes x) else absorbBytes c (blockOf x 0) 8

/-- The combine step of the padded tail, where there are both a block and a tail (R141). -/
def combineTail (c : ConstStore) (x : List Byte) (hash : Wide) : Wide :=
  if numBlocks x ≠ 0 ∧ tailLen x ≠ 0 then combineF hash c.roundConst (absorbBytes c (paddedTail x) (tailLanes x))
  else hash

/-- The accumulator that DIGEST64 finalizes (R141). -/
def digestHash (c : ConstStore) (x : List Byte) : Wide :=
  combineTail c x (combineBlocks c x 1 (numBlocks x - 1) (add128 (firstAbsorbed c x) c.roundConst))

theorem digest64_eq_finalF (c : ConstStore) (x : List Byte) :
    digest64 c x = finalF c.finalConst0 c.finalConst1 (digestHash c x) (tailLen x) := by
  by_cases hn : numBlocks x = 0
  · simp [digest64, digestHash, firstAbsorbed, combineTail, hn, combineBlocks]
  · by_cases ht : tailLen x = 0 <;> simp [digest64, digestHash, firstAbsorbed, combineTail, hn, ht]

/-- The accesses of the first absorption (R142). -/
def firstAccesses (x : List Byte) : List Access :=
  if numBlocks x = 0 then absorbAccesses 0 (paddedTail x) (tailLanes x) else absorbAccesses 0 (blockOf x 0) 8

/-- The accesses of the padded tail's combine step (R142). -/
def tailAccesses (x : List Byte) : List Access :=
  if numBlocks x ≠ 0 ∧ tailLen x ≠ 0 then combineAccesses (paddedTail x) (tailLanes x) else []

/-- ADD128 of the host program (R142). -/
def addInstr : Instr := .add128 0 (.w 0) .kr

/-- COMBINE of the host program (R142). -/
def combineInstr : Instr := .combine 0 (.w 0) .kr (.w 1)

/-- FINALIZE of the host program (R142). -/
def finalizeInstr (x : List Byte) : Instr := .finalize 2 (.w 0) (BitVec.ofNat 8 (tailLen x))

/-- The writes of the host program (R142). -/
def digestWrites (x : List Byte) : List Access :=
  firstAccesses x ++ [issueInstr addInstr] ++ blockAccesses x 1 (numBlocks x - 1) ++ tailAccesses x
    ++ [issueInstr (finalizeInstr x)]

/-- The host program is its writes and two reads. -/
theorem digestAccesses_eq (x : List Byte) :
    digestAccesses x = digestWrites x ++ [.read (loOffset 2), .read statusOffset] := by
  rw [digestWrites, List.append_assoc]; rfl

theorem tailLen_lt (x : List Byte) : tailLen x < 128 := Nat.mod_lt _ (by decide)

theorem tailLanes_le (x : List Byte) : tailLanes x ≤ 8 := by
  have := tailLen_lt x
  unfold tailLanes; omega

theorem hostWrite_firstAccesses (x : List Byte) : ∀ a ∈ firstAccesses x, HostWrite a := by
  unfold firstAccesses
  split
  · exact hostWrite_absorbAccesses _ _ (tailLanes_le x)
  · exact hostWrite_absorbAccesses _ _ le_rfl

theorem hostWrite_tailAccesses (x : List Byte) : ∀ a ∈ tailAccesses x, HostWrite a := by
  unfold tailAccesses
  split
  · exact hostWrite_combineAccesses _ (tailLanes_le x)
  · exact List.forall_mem_nil _

theorem hostWrite_digestWrites (x : List Byte) : ∀ a ∈ digestWrites x, HostWrite a := by
  simp only [digestWrites, List.forall_mem_append]
  exact ⟨⟨⟨⟨hostWrite_firstAccesses x, hostWrite_issueInstr _⟩, hostWrite_blockAccesses x 1 _⟩,
    hostWrite_tailAccesses x⟩, hostWrite_issueInstr _⟩

/-! ## The accumulator in W0 -/

/-- `s` stands between two commands of the host program, begun in `s₀`: nothing is in flight, there is no error, and the
constants, the responses and the fault record are those of `s₀`. -/
structure State.Undisturbed (s₀ s : State) : Prop where
  inflight : s.inflight = none
  err : s.err = false
  consts : s.consts = s₀.consts
  responses : s.responses = s₀.responses
  modelFault : s.modelFault = s₀.modelFault

/-- Besides, W0 holds the accumulator `hash`, marked written. -/
structure State.Accumulates (s₀ : State) (hash : Wide) (s : State) : Prop extends s₀.Undisturbed s where
  wide : s.wide 0 = hash
  marks : s.marks 0 = ⟨true, true⟩

section
variable {s₀ s t : State} {hash : Wide}

theorem wide_of_blanked (h : t.blanked = s.blanked) (i : WReg) : t.wide i = s.wide i :=
  eq_of_blanked (State.wide · i) h

theorem marks_of_blanked (h : t.blanked = s.blanked) (i : WReg) : t.marks i = s.marks i :=
  eq_of_blanked (State.marks · i) h

namespace State.Undisturbed

theorem of_blanked (h : s₀.Undisturbed s) (e : t.blanked = s.blanked) : s₀.Undisturbed t where
  inflight := (eq_of_blanked State.inflight e).trans h.inflight
  err := (eq_of_blanked State.err e).trans h.err
  consts := (eq_of_blanked State.consts e).trans h.consts
  responses := (eq_of_blanked State.responses e).trans h.responses
  modelFault := (eq_of_blanked State.modelFault e).trans h.modelFault

theorem setWide (h : s₀.Undisturbed s) (rd : WReg) (v : Wide) : s₀.Undisturbed (s.setWide rd v) :=
  ⟨h.inflight, h.err, h.consts, h.responses, h.modelFault⟩

theorem src_kr (h : s₀.Undisturbed s) : s.src .kr = s₀.consts.roundConst :=
  congrArg ConstStore.roundConst h.consts

theorem setAccumulator (h : s₀.Undisturbed s) (hash : Wide) : s₀.Accumulates hash (s.setWide 0 hash) :=
  ⟨h.setWide 0 hash, wide_setWide_same s 0 hash, by simp⟩

end State.Undisturbed

namespace State.Accumulates

theorem of_blanked (h : s₀.Accumulates hash s) (e : t.blanked = s.blanked) : s₀.Accumulates hash t :=
  ⟨h.toUndisturbed.of_blanked e, (wide_of_blanked e 0).trans h.wide, (marks_of_blanked e 0).trans h.marks⟩

theorem setWide_of_ne (h : s₀.Accumulates hash s) {rd : WReg} (hrd : rd ≠ 0) (v : Wide) :
    s₀.Accumulates hash (s.setWide rd v) :=
  ⟨h.toUndisturbed.setWide rd v, by simp [hrd, h.wide], by simp [hrd, h.marks]⟩

theorem exec_add (h : s₀.Accumulates hash s) :
    exec addInstr s = .next (s.setWide 0 (add128 hash s₀.consts.roundConst)) := by
  have hreads : s.readsMarked addInstr = true := by simp [addInstr, State.readsMarked, State.srcMarked, h.marks]
  rw [addInstr, exec_add128, ← addInstr, hreads, noteRead_true, h.toUndisturbed.src_kr, State.src, h.wide]

theorem exec_combine (h : s₀.Accumulates hash s) {a : Wide} (hwide : s.wide 1 = a) (hmarks : s.marks 1 = ⟨true, true⟩) :
    exec combineInstr s = .next (s.setWide 0 (combineF hash s₀.consts.roundConst a)) := by
  have hreads : s.readsMarked combineInstr = true := by
    simp [combineInstr, State.readsMarked, State.srcMarked, h.marks, hmarks]
  rw [combineInstr, Machine.exec_combine, ← combineInstr, hreads, noteRead_true, h.toUndisturbed.src_kr, State.src,
    State.src, h.wide, hwide]

theorem exec_finalize (h : s₀.Accumulates hash s) (x : List Byte) :
    exec (finalizeInstr x) s
      = .next (s.setWide 2 (Wide.ofLow (finalF s₀.consts.finalConst0 s₀.consts.finalConst1 hash (tailLen x)))) := by
  have ht : (BitVec.ofNat 8 (tailLen x)).toNat = tailLen x :=
    Nat.mod_eq_of_lt ((tailLen_lt x).trans (by decide))
  have hreads : s.readsMarked (finalizeInstr x) = true := by
    simp [finalizeInstr, State.readsMarked, State.srcMarked, h.marks]
  rw [finalizeInstr, Machine.exec_finalize 2 (.w 0) (ht.trans_lt (tailLen_lt x)), ← finalizeInstr, hreads,
    noteRead_true, State.src, h.wide, ht, h.consts]

end State.Accumulates

/-- Where BUF holds the words of `x` below `2k`, so that they are marked written, ABSORB of `k` lanes writes
`absorb(x, k)` (R141). -/
theorem exec_absorb_of_words (rd : WReg) {x : List Byte} {k : Nat} (hk : k ≤ 8)
    (hwords : ∀ j < 2 * k, readWord s.buf j = some (packWord x j)) :
    exec (.absorb rd (BitVec.ofNat 8 k)) s = .next (s.setWide rd (absorbBytes s.consts x k)) := by
  have himm : (BitVec.ofNat 8 k).toNat = k := Nat.mod_eq_of_lt (by omega)
  have hreads : s.readsMarked (.absorb rd (BitVec.ofNat 8 k)) = true := by
    rw [State.readsMarked, himm, bufMarkedBelow_iff]
    exact fun j hj => ⟨_, hwords j hj⟩
  have hsum : absorbF s.consts.magicAt s.bufWord k = absorbBytes s.consts x k := by
    refine congrArg (and128 · mask126) (absorbSum_congr fun j hj => ?_)
    rw [State.bufWord, hwords j hj, Option.getD_some]
  rw [exec_absorb rd (himm.trans_le hk), hreads, noteRead_true, himm, hsum]

/-- Writing `k` lanes of `x` and absorbing them puts `absorb(x, k)` into W[rd] (R141, R142). -/
theorem performs_absorb (hidle : s.inflight = none) (herr : s.err = false) (rd : WReg) (x : List Byte) {k : Nat}
    (hk : k ≤ 8) :
    Performs s (absorbAccesses rd x k) fun t => t.blanked = (s.setWide rd (absorbBytes s.consts x k)).blanked := by
  have hw : (Instr.absorb rd (BitVec.ofNat 8 k)).wellFormed = true := by
    simp [Instr.wellFormed, laneCountOk]; omega
  refine (performs_writeBlock hidle x (by omega)).append (fun t ⟨ht, hwords⟩ => ?_) (hostWrite_issueInstr _)
  have hundisturbed : State.Undisturbed s t := State.Undisturbed.of_blanked ⟨hidle, herr, rfl, rfl, rfl⟩ ht
  refine performs_command hundisturbed.inflight hundisturbed.err hw fun u hu hbuf => ?_
  refine ⟨_, exec_absorb_of_words rd hk (hbuf ▸ hwords), ?_⟩
  rw [(hundisturbed.of_blanked hu).consts]
  exact blanked_setWide_congr (hu.trans ht) rd _

namespace State.Accumulates

/-- A command of the host program that in every state with `hash` in W0 writes `v` to one register does so here. -/
theorem performs_register (h : s₀.Accumulates hash s) {i : Instr} (hw : i.wellFormed = true) {rd : WReg} {v : Wide}
    (hexec : ∀ u, s₀.Accumulates hash u → exec i u = .next (u.setWide rd v)) :
    Performs s [issueInstr i] fun t => t.blanked = (s.setWide rd v).blanked :=
  performs_command h.inflight h.err hw fun u hu _ =>
    ⟨_, hexec u (h.of_blanked hu), blanked_setWide_congr hu rd v⟩

theorem performs_add (h : s₀.Accumulates hash s) :
    Performs s [issueInstr addInstr] (s₀.Accumulates (add128 hash s₀.consts.roundConst)) :=
  (h.performs_register rfl fun _ hu => hu.exec_add).mono fun _ ht =>
    (h.toUndisturbed.setAccumulator _).of_blanked ht

theorem performs_combine (h : s₀.Accumulates hash s) (x : List Byte) {k : Nat} (hk : k ≤ 8) :
    Performs s (combineAccesses x k)
      (s₀.Accumulates (combineF hash s₀.consts.roundConst (absorbBytes s₀.consts x k))) := by
  rw [← h.consts]
  refine (performs_absorb h.inflight h.err 1 x hk).append (fun t ht => ?_) (hostWrite_issueInstr _)
  have hacc : s₀.Accumulates hash t := (h.setWide_of_ne (by decide) _).of_blanked ht
  refine performs_command hacc.inflight hacc.err rfl fun u hu _ => ?_
  have hu₀ : s₀.Accumulates hash u := hacc.of_blanked hu
  have hwide : u.wide 1 = absorbBytes s.consts x k := by rw [wide_of_blanked (hu.trans ht), wide_setWide_same]
  have hmarks : u.marks 1 = ⟨true, true⟩ := by rw [marks_of_blanked (hu.trans ht)]; simp
  rw [h.consts] at hwide ⊢
  exact ⟨_, hu₀.exec_combine hwide hmarks, hu₀.toUndisturbed.setAccumulator _⟩

/-- The loop over the blocks, by induction on their number. -/
theorem performs_blocks (h : s₀.Accumulates hash s) (x : List Byte) (j n : Nat) :
    Performs s (blockAccesses x j n) (s₀.Accumulates (combineBlocks s₀.consts x j n hash)) := by
  induction n generalizing s hash j with
  | zero => exact .nil h
  | succ n ih =>
    exact (h.performs_combine _ le_rfl).append (fun t ht => ih ht (j + 1)) (hostWrite_blockAccesses x (j + 1) n)

theorem performs_tail (h : s₀.Accumulates hash s) (x : List Byte) :
    Performs s (tailAccesses x) (s₀.Accumulates (combineTail s₀.consts x hash)) := by
  unfold tailAccesses combineTail
  split
  · exact h.performs_combine _ (tailLanes_le x)
  · exact .nil h

theorem performs_finalize (h : s₀.Accumulates hash s) (x : List Byte) :
    Performs s [issueInstr (finalizeInstr x)] fun t => s₀.Undisturbed t ∧ t.marks 2 = ⟨true, true⟩ ∧
      t.wide 2 = Wide.ofLow (finalF s₀.consts.finalConst0 s₀.consts.finalConst1 hash (tailLen x)) := by
  have hw : (finalizeInstr x).wellFormed = true := by
    have := tailLen_lt x
    rw [finalizeInstr, Instr.wellFormed, tailLengthOk_iff, BitVec.toNat_ofNat]
    omega
  refine (h.performs_register hw fun _ hu => hu.exec_finalize x).mono fun t ht => ?_
  refine ⟨(h.toUndisturbed.setWide 2 _).of_blanked ht, ?_, ?_⟩
  · rw [marks_of_blanked ht]; simp
  · rw [wide_of_blanked ht, wide_setWide_same]

end State.Accumulates

section
variable (hidle : s.inflight = none) (herr : s.err = false) (x : List Byte)
include hidle herr

theorem performs_first : Performs s (firstAccesses x) (s.Accumulates (firstAbsorbed s.consts x)) := by
  have hset (v : Wide) : s.Accumulates v (s.setWide 0 v) :=
    State.Undisturbed.setAccumulator ⟨hidle, herr, rfl, rfl, rfl⟩ v
  unfold firstAccesses firstAbsorbed
  split
  · exact (performs_absorb hidle herr 0 _ (tailLanes_le x)).mono fun t ht => (hset _).of_blanked ht
  · exact (performs_absorb hidle herr 0 _ le_rfl).mono fun t ht => (hset _).of_blanked ht

/-- The writes of the host program leave the digest in W2.lo and 0 in W2.hi (R142). -/
theorem performs_digestWrites :
    Performs s (digestWrites x) fun t => s.Undisturbed t ∧ t.marks 2 = ⟨true, true⟩ ∧
      t.wide 2 = Wide.ofLow (digest64 s.consts x) := by
  have hadd := (performs_first hidle herr x).append (fun _ h => h.performs_add) (hostWrite_issueInstr _)
  have hblocks := hadd.append (fun _ h => h.performs_blocks x 1 (numBlocks x - 1)) (hostWrite_blockAccesses x 1 _)
  have htail := hblocks.append (fun _ h => h.performs_tail x) (hostWrite_tailAccesses x)
  rw [digest64_eq_finalF]
  exact htail.append (fun _ h => h.performs_finalize x) (hostWrite_issueInstr _)

end

/-- With an error recorded, writes of BUF words and of CMD leave the registers and the error alone (R153). -/
theorem performs_hostWrites_of_err (hidle : s.inflight = none) (herr : s.err = true) {as : List Access}
    (has : ∀ a ∈ as, HostWrite a) : Performs s as fun t => t.blanked = s.blanked := by
  induction as generalizing s with
  | nil => exact .nil rfl
  | cons a as ih =>
    obtain ⟨ha, has⟩ := List.forall_mem_cons.1 has
    have hfirst : Performs s [a] fun t => t.blanked = s.blanked := by
      cases ha with
      | buf hk v => exact (performs_bufWrite hidle hk v).mono fun _ ⟨ht, _⟩ => ht
      | cmd v => exact performs_droppedCommand hidle herr v
    refine hfirst.append (fun t ht => ?_) has
    have hland : t.inflight = none := (eq_of_blanked State.inflight ht).trans hidle
    have herr' : t.err = true := (eq_of_blanked State.err ht).trans herr
    exact (ih hland herr' has).mono fun _ hu => hu.trans ht

/-! ## The two reads (R142) -/

theorem toNat_loOffset (i : WReg) : (loOffset i).toNat = 0x080 + 16 * i.val := by
  simp [loOffset]; omega

variable {rest : List Access}

/-- A read of a low limb adds a response. Where the limb is marked written, that is the limb without a fault, and the
fault record stays (R23). -/
theorem step_readLo (hidle : s.inflight = none) {i : WReg} (hp : s.pending = .read (loOffset i) :: rest) :
    ∃ d f m, ((s.marks i).lo = true → d = (s.wide i).lo ∧ f = none ∧ m = s.modelFault) ∧
      step s = .next { s with pending := rest, responses := ⟨loOffset i, d, f⟩ :: s.responses, modelFault := m } := by
  cases hmark : (s.marks i).lo with
  | true =>
    exact ⟨_, _, _, fun _ => ⟨rfl, rfl, rfl⟩,
      portReadReturnsContents s _ rest _ hidle hp (.inr (.inl ⟨i, toNat_loOffset i, hmark, rfl⟩))⟩
  | false =>
    obtain ⟨d, hd⟩ := unwrittenPortReadIsRecorded s _ rest hidle hp (.inr (.inl ⟨i, toNat_loOffset i, hmark⟩))
    exact ⟨d, _, _, nofun, hd⟩

theorem step_readStatus (hidle : s.inflight = none) (hp : s.pending = .read statusOffset :: rest) :
    step s = .next { s with pending := rest, responses := ⟨statusOffset, s.statusWord, none⟩ :: s.responses } :=
  portReadReturnsContents s _ rest _ hidle hp (.inr (.inr (.inr (.inr (.inl ⟨rfl, rfl⟩)))))

/-- The two reads of the host program: of W2.lo, then of the STATUS word, which the first read leaves alone. -/
theorem reaches_digestReads (hidle : s.inflight = none) (hp : s.pending = [.read (loOffset 2), .read statusOffset]) :
    ∃ d f m, ((s.marks 2).lo = true → d = (s.wide 2).lo ∧ f = none ∧ m = s.modelFault) ∧
      Reaches s { s with
        pending := [], modelFault := m
        responses := ⟨statusOffset, s.statusWord, none⟩ :: ⟨loOffset 2, d, f⟩ :: s.responses } := by
  obtain ⟨d, f, m, hmarked, hlo⟩ := step_readLo hidle hp
  have hstatus := step_readStatus (rest := []) (s := { s with
    pending := [.read statusOffset], responses := ⟨loOffset 2, d, f⟩ :: s.responses, modelFault := m }) hidle rfl
  exact ⟨d, f, m, hmarked, (Reaches.of_step hlo).trans (.of_step hstatus)⟩

/-- The host takes the digest exactly where the STATUS word it read after it shows ERR = 0 (R142). -/
theorem acceptedDigest_statusWord (s : State) (off : Offset) (f : Option Fault) (digest : Response)
    (rs : List Response) :
    acceptedDigest (⟨off, s.statusWord, f⟩ :: digest :: rs) = if s.err then none else some digest.data := by
  rw [acceptedDigest, statusWord_err]

end

/-- Settles O47: the writes leave the digest in W2, and the two reads return it and a STATUS word without an error. -/
theorem hostSequenceComputesDigest64 : Obligations.HostSequenceComputesDigest64 := by
  intro x s hidle herr hp
  obtain ⟨t, hst, hpending, ht, hmarks, hwide⟩ :=
    performs_digestWrites hidle herr x _ (hp.trans (digestAccesses_eq x)) rfl
  obtain ⟨d, f, m, hmarked, hreads⟩ := reaches_digestReads ht.inflight hpending
  obtain ⟨rfl, rfl, rfl⟩ := hmarked (by rw [hmarks])
  refine ⟨_, hst.trans hreads, ⟨rfl, ht.inflight⟩, hwide, ?_, (statusWord_err _).trans ht.err, ?_, ht.err,
    ht.modelFault⟩
  · rw [hwide, ← ht.responses]; rfl
  · rw [acceptedDigest_statusWord, hwide]
    exact if_neg (ne_true_of_eq_false ht.err)

/-- Settles O50: the commands among the writes are dropped, and the STATUS read shows the error. -/
theorem hostSequenceAfterErrorIsNotAccepted : Obligations.HostSequenceAfterErrorIsNotAccepted := by
  intro x s hidle herr hp
  obtain ⟨t, hst, hpending, ht⟩ :=
    performs_hostWrites_of_err hidle herr (hostWrite_digestWrites x) _ (hp.trans (digestAccesses_eq x)) rfl
  have hland : t.inflight = none := (eq_of_blanked State.inflight ht).trans hidle
  have herr' : t.err = true := (eq_of_blanked State.err ht).trans herr
  have hw : t.w = s.w := eq_of_blanked State.w ht
  have hcode : t.errCode = s.errCode := eq_of_blanked State.errCode ht
  have hresponses : t.responses = s.responses := eq_of_blanked State.responses ht
  have hstatus : t.statusWord = s.statusWord := eq_of_blanked State.statusWord ht
  obtain ⟨d, f, m, -, hreads⟩ := reaches_digestReads hland hpending
  refine ⟨_, hst.trans hreads, ⟨rfl, hland⟩, hw, herr', hcode, ⟨d, f, ?_⟩, (statusWord_err s).trans herr, ?_⟩
  · rw [← hresponses, ← hstatus]; rfl
  · rw [acceptedDigest_statusWord, if_pos herr']

end Sys2Proof.Machine
end

section
/-! PROOFS. While an error is recorded no command is in flight, and none gets there; W is then written through the port only
(O45). A recorded model fault outlasts the run (O46). -/

namespace Sys2Proof.Machine

open Sys2Proof.Reference

/-! ## What an access does to W and to the command in flight -/

@[simp] theorem readPort_w (s : State) (off : Offset) : (s.readPort off).w = s.w := by
  rcases readPort_cases s off with ⟨v, marked, e⟩ | e <;> simp [e]

@[simp] theorem readPort_inflight (s : State) (off : Offset) : (s.readPort off).inflight = s.inflight := by
  rcases readPort_cases s off with ⟨v, marked, e⟩ | e <;> simp [e]

@[simp] theorem discardPort_w (s : State) (off : Offset) : (s.discardPort off).w = s.w := by
  rcases discardPort_cases s off with ⟨marked, e⟩ | e <;> simp [e]

@[simp] theorem discardPort_inflight (s : State) (off : Offset) : (s.discardPort off).inflight = s.inflight := by
  rcases discardPort_cases s off with ⟨marked, e⟩ | e <;> simp [e]

/-- A CMD write is dropped while ERR = 1 (R153). -/
theorem issue_inflight_of_err {s : State} (herr : s.err = true) (v : Word) : (s.issue v).inflight = s.inflight := by
  rw [State.issue, if_pos herr]

/-- Of the actions of a CTRL write, SOFT_RESET alone writes W (R29, R171). -/
theorem writeCtrl_w (s : State) (v : Word) : (s.writeCtrl v).w = s.w ∨ v = 1#64 ∨ v = 3#64 := by
  rcases writeCtrl_cases s v with ⟨-, e⟩ | ⟨hv, -⟩ | ⟨-, e⟩ | ⟨-, e⟩
  · exact .inl (by simp [e])
  · exact .inr hv
  · exact .inl (by simp [e])
  · exact .inl (by rw [e])

theorem writeCtrl_inflight_of_idle {s : State} (hidle : s.inflight = none) (v : Word) :
    (s.writeCtrl v).inflight = none := by
  rcases writeCtrl_cases s v with ⟨-, e⟩ | ⟨-, e⟩ | ⟨-, e⟩ | ⟨-, e⟩ <;> simp [e, hidle]

/-- An access that changes W is a write of a limb, or SOFT_RESET (R46, R171). -/
theorem perform_w (s : State) (a : Access) :
    (s.perform a).w = s.w ∨
    (∃ (i : WReg) (v : Word), a = .write (loOffset i) v ∨ a = .write (hiOffset i) v) ∨
    (∃ v, a = .write ctrlOffset v ∧ (v = 1#64 ∨ v = 3#64)) := by
  cases a with
  | read off => exact .inl (readPort_w s off)
  | discard off => exact .inl (discardPort_w s off)
  | write off v =>
    rw [State.perform]
    rcases writePort_cases s off v with ⟨k, -, e⟩ | ⟨i, rfl, -⟩ | ⟨i, rfl, -⟩ | ⟨-, e⟩ | ⟨rfl, e⟩ | ⟨-, e⟩
    · exact .inl (by simp [e])
    · exact .inr (.inl ⟨i, v, .inl rfl⟩)
    · exact .inr (.inl ⟨i, v, .inr rfl⟩)
    · exact .inl (by simp [e])
    · rw [e]
      exact (writeCtrl_w s v).imp id fun hv => .inr ⟨v, rfl, hv⟩
    · exact .inl (by simp [e])

/-- With nothing in flight and ERR = 1, no access puts a command in flight (R153). -/
theorem perform_inflight_of_err {s : State} (hidle : s.inflight = none) (herr : s.err = true) (a : Access) :
    (s.perform a).inflight = none := by
  cases a with
  | read off => exact (readPort_inflight s off).trans hidle
  | discard off => exact (discardPort_inflight s off).trans hidle
  | write off v =>
    rw [State.perform]
    rcases writePort_cases s off v with ⟨k, -, e⟩ | ⟨i, -, e⟩ | ⟨i, -, e⟩ | ⟨-, e⟩ | ⟨-, e⟩ | ⟨-, e⟩ <;> rw [e]
    · exact hidle
    · exact hidle
    · exact hidle
    · exact (issue_inflight_of_err herr v).trans hidle
    · exact writeCtrl_inflight_of_idle hidle v
    · exact (raise_inflight s _).trans hidle

/-- A command is in flight only with ERR = 0, so with ERR = 1 none is (R153, R155). -/
theorem State.Inv.idle_of_err {s : State} (h : s.Inv) (herr : s.err = true) : s.inflight = none := by
  by_contra hne
  exact absurd (h.inflightErr (Option.isSome_iff_ne_none.2 hne)) (by simp [herr])

/-- With nothing in flight, a step does nothing or performs the next access (R48). -/
theorem step_cases_of_idle {s t : State} (hidle : s.inflight = none) (h : step s = .next t) :
    t = s ∨ ∃ a rest, s.pending = a :: rest ∧ t = { s with pending := rest }.perform a := by
  rcases step_cases h with ⟨c, hc, -⟩ | ⟨c, i, hc, -⟩ | ⟨c, code, hc, -⟩ | ⟨-, -, ht⟩ | ⟨a, rest, -, hp, ht⟩
  · cases hidle.symm.trans hc
  · cases hidle.symm.trans hc
  · cases hidle.symm.trans hc
  · exact .inl ht
  · exact .inr ⟨a, rest, hp, ht⟩

/-- Settles O45: no command is in flight, so the step is an access, which puts none there. -/
theorem noCommandRunsWhileError : Obligations.NoCommandRunsWhileError := by
  intro s t hinv herr hs
  have hidle := hinv.idle_of_err herr
  rcases step_cases_of_idle hidle hs with rfl | ⟨a, rest, hp, rfl⟩
  · exact ⟨hidle, .inl rfl⟩
  · have hhead : s.pending.head? = some a := by rw [hp, List.head?_cons]
    refine ⟨perform_inflight_of_err (s := { s with pending := rest }) hidle herr a, ?_⟩
    rcases perform_w { s with pending := rest } a with hw | ⟨i, v, ha⟩ | ⟨v, rfl, hv⟩
    · exact .inl hw
    · exact .inr (.inl ⟨i, v, ha.imp (fun e => hhead.trans (congrArg some e)) fun e => hhead.trans (congrArg some e)⟩)
    · exact .inr (.inr ⟨v, ⟨hidle, hhead⟩, hv⟩)

/-- Settles O46: no step of the run takes the fault back. -/
theorem modelFaultIsNeverTakenBack : Obligations.ModelFaultIsNeverTakenBack :=
  fun _ _ _ _ hfault hrun => run_keeps_fault hfault hrun

end Sys2Proof.Machine
end

section
/-! PROOFS. The state after power-on reset: the values R170 gives (O38), and the invariant (O39). -/

namespace Sys2Proof.Machine

/-! ## What reset leaves -/

@[simp] theorem marks_reset (i : WReg) : State.reset.marks i = ⟨false, false⟩ := by
  simp [State.marks, State.reset]

@[simp] theorem bufByte_reset (j : Nat) : State.reset.bufByte j = none := readByte_nil j

/-- In an empty buffer the first byte of every word is missing, so the word is. -/
@[simp] theorem readWord_nil (k : Nat) : readWord [] k = none := by
  rw [readWord, readByte_nil]
  rfl

@[simp] theorem bufMarked_reset (k : Nat) : State.reset.bufMarked k = false := by
  rw [State.bufMarked, show State.reset.buf = [] from rfl, readWord_nil, Option.isSome_none]

/-- With nothing in flight, no error recorded and CMP at EQ, STATUS is 0 (R26, R152). -/
theorem statusWord_eq_zero {s : State} (hidle : s.inflight = none) (herr : s.err = false)
    (hcode : s.errCode = .noError) (hcmp : s.cmp = .eq) : s.statusWord = 0#64 := by
  rw [State.statusWord, State.busy, hidle, herr, hcode, hcmp]
  decide

/-- Settles O38: each mark and byte by its lemma; the other fields are stored as R170 gives them. -/
theorem resetLeavesStatusClear : Obligations.ResetLeavesStatusClear :=
  ⟨marks_reset, bufByte_reset, bufMarked_reset, statusWord_eq_zero rfl rfl rfl rfl, rfl, rfl, rfl⟩

/-! ## The invariant at reset -/

/-- Reset meets the invariant: BUF is empty, no error is recorded, nothing is in flight, and no value was returned. -/
theorem State.Inv.reset : State.reset.Inv where
  bufWf := wf_nil
  bufWhole := wholeWords_nil
  errCode := iff_of_true rfl rfl
  inflightErr := fun _ => rfl
  inflightCmd := nofun
  faultRecorded := nofun

/-- Settles O39: the base case of the invariant, whose step is O40. -/
theorem resetMeetsStateInvariant : Obligations.ResetMeetsStateInvariant := State.Inv.reset

end Sys2Proof.Machine
end
